-- ==== Sys2Proof/Word.lean ====
section
/-! DEFINITION. The machine's word types (00_scope.md R10): bytes, 16- and 32-bit values, f32 patterns. -/

namespace Sys2Proof

/-- `u8`, the addressable unit (20_memory.md R41). -/
abbrev Byte := BitVec 8

/-- `u16`: the checksum (40_checksum.md R95). -/
abbrev U16 := BitVec 16

/-- `u32`: timestamps (30_encoding.md R64). -/
abbrev U32 := BitVec 32

/-- `f32`, carried as a 32-bit pattern and never looked into (41_payload_codec.md R116). -/
abbrev F32 := BitVec 32

end Sys2Proof
end

