-- ==== Sys2Proof/Syntax.lean ====
section
/-! DEFINITION. The vocabulary of the interface (kinds, reasons, field records), what stands at the two ports
(`Request`, `Input`) and the instruction set `Instr`, one constructor per row of spec/opcode_table.json. -/

namespace Sys2Proof

/-- The kinds of 30_encoding.md R71 and the open case of 10_state.md R34. `unknown c` is formed only for a `c` that is
not one of the eleven named codes (41_payload_codec.md R101). -/
inductive PacketKind
  | handshake
  | status
  | alert
  | complete
  | forceControl
  | positionControl
  | hybridControl
  | parameterSet
  | emergencyStop
  | response
  | heartbeat
  | unknown (code : Byte)
deriving DecidableEq, Repr

/-- The payload formats, the column "payload format" of 30_encoding.md R71. -/
inductive Layout
  | status
  | force
  | heartbeat
  | raw
deriving DecidableEq, Repr

/-- The receive-side reasons that are errors (60_exceptions.md R170, codes 2 to 6). -/
inductive RejectReason
  | badHeader
  | badTail
  | lengthMismatch
  | crcMismatch
  | truncatedPayload
deriving DecidableEq, Repr

/-- The encode-side errors (60_exceptions.md R178, R179). -/
inductive EncodeError
  | missingRequiredField
  | payloadTooLong
deriving DecidableEq, Repr

/-- The complete taxonomy of 60_exceptions.md R170, the row "none" included. -/
inductive Reason
  | ok
  | incomplete
  | reject (r : RejectReason)
  | unknownKind
  | encode (e : EncodeError)
deriving DecidableEq, Repr

/-- The field record of ENCODE with a presence bit per field (41_payload_codec.md R110, 30_encoding.md R84): `none` is a
key the caller left out. The record of one kind uses its own fields; `forceRate` is the field of that name of STATUS
and of FORCE_CONTROL. `raw` is always present. -/
structure Fields where
  forceValue : Option F32 := none
  forceRate : Option F32 := none
  position : Option F32 := none
  velocity : Option F32 := none
  motorEnabled : Option Byte := none
  positionReached : Option Byte := none
  stallDetected : Option Byte := none
  emergencyStop : Option Byte := none
  errorCode : Option Byte := none
  mode : Option Byte := none
  targetForce : Option F32 := none
  maxForce : Option F32 := none
  holdTime : Option F32 := none
  timestamp : Option U32 := none
  status : Option Byte := none
  raw : List Byte := []
deriving DecidableEq, Repr

/-- One call at the command port (30_encoding.md R82, R84): the 3-bit select code and the operand lines. An operation
reads the lines R82 gives it. DESIGN CHOICE (log 1, 26): the spec gives operands no bit encoding. -/
structure Request where
  cmd : BitVec 3
  b : Byte := 0
  data : List Byte := []
  code : Byte := 0
  fields : Fields := {}
  nowMs : Nat := 0
deriving DecidableEq, Repr

/-- One call of the owner: a command, or a chunk of bytes arriving on the wire (00_scope.md R3). DESIGN CHOICE (log 1, 3). -/
inductive Input
  | command (r : Request)
  | wire (chunk : List Byte)
deriving DecidableEq, Repr

/-- The instruction set: the eight CMD rows (30_encoding.md R82) and the twelve FRAME rows (R71). A FRAME row carries the
frame's fields (R60) as they stand on the wire; the length field is the payload's length and the header is fixed. -/
inductive Instr
  | crc16 (data : List Byte)
  | push (b : Byte)
  | feed (chunk : List Byte)
  | reset
  | validate (r : List Byte)
  | decode (code : Byte) (payload : List Byte)
  | encode (code : Byte) (fields : Fields) (nowMs : Nat)
  | reservedCmd7
  | handshake (timestamp : U32) (payload : List Byte) (crc : U16) (tail : Byte)
  | status (timestamp : U32) (payload : List Byte) (crc : U16) (tail : Byte)
  | alert (timestamp : U32) (payload : List Byte) (crc : U16) (tail : Byte)
  | complete (timestamp : U32) (payload : List Byte) (crc : U16) (tail : Byte)
  | forceControl (timestamp : U32) (payload : List Byte) (crc : U16) (tail : Byte)
  | positionControl (timestamp : U32) (payload : List Byte) (crc : U16) (tail : Byte)
  | hybridControl (timestamp : U32) (payload : List Byte) (crc : U16) (tail : Byte)
  | parameterSet (timestamp : U32) (payload : List Byte) (crc : U16) (tail : Byte)
  | emergencyStop (timestamp : U32) (payload : List Byte) (crc : U16) (tail : Byte)
  | response (timestamp : U32) (payload : List Byte) (crc : U16) (tail : Byte)
  | heartbeat (timestamp : U32) (payload : List Byte) (crc : U16) (tail : Byte)
  | unknown (code : Byte) (timestamp : U32) (payload : List Byte) (crc : U16) (tail : Byte)
deriving DecidableEq, Repr

end Sys2Proof
end

