-- ==== Sys2Proof/Config.lean ====
section
/-! DEFINITION. What an implementation may choose: the four observable choices that 92_eei_decisions.md asks a model to
keep as named configuration fields (D5 to D8), with the spec's values as defaults. Nothing in the machine changes them
(10_state.md R27). BUF_CAP and MAX_CHUNK are unbounded (20_memory.md R49, log 10), so they are no fields. -/

namespace Sys2Proof

/-- Which of BadTail and CrcMismatch is reported when both apply (93 U10). -/
inductive RejectOrder
  | tailFirst
  | crcFirst
deriving DecidableEq, Repr

/-- What `raw_bytes` holds (93 U11). The spec names only the default; the other value is the bytes the rejection
consumes (91_not_in_source.md N4). -/
inductive RawBytesOf
  | wholeCandidate
  | consumedBytes
deriving DecidableEq, Repr

/-- How far a codec failure advances (93 U12), the two movements of the source's sentence. -/
inductive TruncatedAdvance
  | wholeFrame
  | headerByte
deriving DecidableEq, Repr

/-- What happens to a payload longer than its layout (93 U13). The taxonomy has no reason for a rejection
(90_conflicts.md C8), so `reject` leaves the reason open. -/
inductive LongPayload
  | accept
  | reject (reason : RejectReason)
deriving DecidableEq, Repr

/-- The choices of one implementation. The defaults are the spec's decisions. -/
structure Config where
  rejectOrder : RejectOrder := .tailFirst
  rawBytesOf : RawBytesOf := .wholeCandidate
  truncatedAdvance : TruncatedAdvance := .wholeFrame
  acceptLongPayload : LongPayload := .accept
deriving DecidableEq, Repr

end Sys2Proof
end

