-- ==== Sys2Proof/Machine/State.lean ====
section
/-! DEFINITION. What crosses the interface (10_state.md section 9), the machine's state, its faults and refusals, and the
state after reset. -/

namespace Sys2Proof.Machine

/-- 10_state.md R35: the decoded fields, one case per layout; every kind without a layout is `raw` (R106, R107). -/
inductive PayloadVariant
  | status (forceValue forceRate position velocity : F32)
      (motorEnabled positionReached stallDetected emergencyStop errorCode : Byte)
  | forceControl (mode : Byte) (targetForce forceRate maxForce holdTime : F32)
  | heartbeat (timestamp : U32) (status : Byte)
  | raw (bytes : List Byte)
deriving DecidableEq, Repr

/-- 10_state.md R35. -/
structure Packet where
  kind : PacketKind
  timestamp : U32
  fields : PayloadVariant
deriving DecidableEq, Repr

/-- 10_state.md R36, the spec's `Outcome`. -/
inductive FeedOutcome
  | decoded (p : Packet)
  | rejected (reason : RejectReason) (rawBytes : List Byte)
deriving DecidableEq, Repr

/-- The fields VALIDATE hands to the codec (43_frame_validator.md R145). -/
structure Validated where
  type : Byte
  timestamp : U32
  payload : List Byte
deriving DecidableEq, Repr

/-- What an operation returns, the column "result" of 30_encoding.md R82. DECODE's result comes with its kind
(41_payload_codec.md R100). `nothing` is RESET's result. -/
inductive Result
  | nothing
  | checksum (v : U16)
  | outcomes (os : List FeedOutcome)
  | validated (v : Except RejectReason Validated)
  | variant (kind : PacketKind) (v : Except RejectReason PayloadVariant)
  | frame (f : Except EncodeError (List Byte))
deriving DecidableEq, Repr

/-- The state of one instance. `buf` is the whole of the spec's architectural state (10_state.md R20, 70 R200). `port` and
`returned` hold the transaction-level interface (92_eei_decisions.md D1): the owner's calls not yet taken, and the
result of the operation that ran last. DESIGN CHOICE (log 1, 2). -/
structure State where
  buf : List Byte
  port : List Input
  returned : Result
deriving DecidableEq, Repr

/-- No operation faults: "The engine has no behaviour that is a `fault` (it never traps)" (93_implementation_defined.md
Part 1). The type has no constructor. -/
inductive Fault
deriving DecidableEq, Repr

/-- Why an operation is refused. -/
inductive Refusal
  /-- Raised by an arm of `exec` whose instruction has no meaning yet; none is left. Safe. -/
  | notModelled (mnemonic : String)
  /-- Raised by RESERVED_CMD7: select code 7 selects no operation (30_encoding.md R82, 93 U8). Safe. -/
  | reservedCommand
deriving DecidableEq, Repr

/-- 10_state.md R30, 70_reset_and_hazards.md R200: `buf = []`. No call is pending and nothing has been returned
(DESIGN CHOICE, log 1, 2). -/
def State.reset : State :=
  { buf := [], port := [], returned := .nothing }

end Sys2Proof.Machine
end

