-- ==== Sys2Proof/Machine/Operands.lean ====
section
/-! DEFINITION. Operand forms: the constants of the format, byte assembly, the type-code map, the frame's bytes and the
payload codec in both directions (00_scope.md R7, R10; 30_encoding.md; 41_payload_codec.md). -/

namespace Sys2Proof.Machine

/-! ### Constants (00_scope.md R7) -/

/-- `HEADER`. -/
def header : Byte := 0xAA

/-- `TAIL`. -/
def tailByte : Byte := 0x55

/-- `FRAME_SIZE(len)`, corrected by 90_conflicts.md C1 (00_scope.md R8). -/
abbrev frameSize (len : Nat) : Nat := 10 + len

/-! ### Byte assembly (00_scope.md R10, 20_memory.md R43) -/

/-- `s[i]`. Rules read only bytes they have first shown present (00_scope.md R11); the value past the end is used by none. -/
def byteAt (s : List Byte) (i : Nat) : Byte := s.getD i 0

/-- `s[a .. b)`. -/
def slice (s : List Byte) (a b : Nat) : List Byte := (s.drop a).take (b - a)

/-- `le16(s, i)`. -/
def le16 (s : List Byte) (i : Nat) : U16 :=
  (byteAt s i).zeroExtend 16 ||| ((byteAt s (i + 1)).zeroExtend 16 <<< 8)

/-- `le32(s, i)`. -/
def le32 (s : List Byte) (i : Nat) : U32 :=
  (byteAt s i).zeroExtend 32 ||| ((byteAt s (i + 1)).zeroExtend 32 <<< 8)
    ||| ((byteAt s (i + 2)).zeroExtend 32 <<< 16) ||| ((byteAt s (i + 3)).zeroExtend 32 <<< 24)

/-- `bytes_le16(v)`. -/
def bytesLe16 (v : U16) : List Byte := [v.extractLsb' 0 8, v.extractLsb' 8 8]

/-- `bytes_le32(v)`. -/
def bytesLe32 (v : U32) : List Byte :=
  [v.extractLsb' 0 8, v.extractLsb' 8 8, v.extractLsb' 16 8, v.extractLsb' 24 8]

/-! ### The type-code map (30_encoding.md R71) -/

/-- `kind_of(code)`, total (41_payload_codec.md R101). -/
def kindOf (code : Byte) : PacketKind :=
  if code = 0x00 then .handshake
  else if code = 0x10 then .status
  else if code = 0x20 then .alert
  else if code = 0x21 then .complete
  else if code = 0x30 then .forceControl
  else if code = 0x31 then .positionControl
  else if code = 0x32 then .hybridControl
  else if code = 0x40 then .parameterSet
  else if code = 0x50 then .emergencyStop
  else if code = 0x80 then .response
  else if code = 0x90 then .heartbeat
  else .unknown code

/-- The type code of a kind. -/
def codeOf : PacketKind → Byte
  | .handshake => 0x00
  | .status => 0x10
  | .alert => 0x20
  | .complete => 0x21
  | .forceControl => 0x30
  | .positionControl => 0x31
  | .hybridControl => 0x32
  | .parameterSet => 0x40
  | .emergencyStop => 0x50
  | .response => 0x80
  | .heartbeat => 0x90
  | .unknown c => c

/-- The payload format of a kind, the column of 30_encoding.md R71. -/
def layoutOf : PacketKind → Layout
  | .status => .status
  | .forceControl => .force
  | .heartbeat => .heartbeat
  | .handshake => .raw
  | .alert => .raw
  | .complete => .raw
  | .positionControl => .raw
  | .hybridControl => .raw
  | .parameterSet => .raw
  | .emergencyStop => .raw
  | .response => .raw
  | .unknown _ => .raw

/-- The size of a layout: 24, 17, 5 (00_scope.md R7), the kind's minimum length (41_payload_codec.md R102). -/
def layoutSize : Layout → Nat
  | .status => 24
  | .force => 17
  | .heartbeat => 5
  | .raw => 0

/-! ### The frame's bytes (30_encoding.md R60) -/

/-- Length, type, timestamp and payload: the checksummed range (30_encoding.md R66). -/
def frameBody (code : Byte) (timestamp : U32) (payload : List Byte) : List Byte :=
  BitVec.ofNat 8 payload.length :: code :: (bytesLe32 timestamp ++ payload)

/-- The bytes of a frame in wire order, each field as given. -/
def frameBytes (code : Byte) (timestamp : U32) (payload : List Byte) (crc : U16) (tail : Byte) : List Byte :=
  header :: (frameBody code timestamp payload ++ bytesLe16 crc ++ [tail])

/-! ### Payload decode (41_payload_codec.md R103 to R107) -/

/-- R103, layout P-STATUS (30_encoding.md R75); bytes 21 to 23 are read by nobody (R109). -/
def decodeStatus (p : List Byte) : PayloadVariant :=
  .status (le32 p 0) (le32 p 4) (le32 p 8) (le32 p 12)
    (byteAt p 16) (byteAt p 17) (byteAt p 18) (byteAt p 19) (byteAt p 20)

/-- R104, layout P-FORCE (30_encoding.md R74). -/
def decodeForceControl (p : List Byte) : PayloadVariant :=
  .forceControl (byteAt p 0) (le32 p 1) (le32 p 5) (le32 p 9) (le32 p 13)

/-- R105, layout P-HEARTBEAT (30_encoding.md R76). -/
def decodeHeartbeat (p : List Byte) : PayloadVariant :=
  .heartbeat (le32 p 0) (byteAt p 4)

/-- What an implementation says of a payload longer than its layout (R108, log 9); with the spec's choice, nothing. -/
def longPayloadError (cfg : Config) (l : Layout) (n : Nat) : Option RejectReason :=
  match cfg.acceptLongPayload with
  | .accept => none
  | .reject r => if l ≠ .raw ∧ layoutSize l < n then some r else none

/-- DECODE (R100): the minimum length first (R102), then the layout. -/
def decodePayload (cfg : Config) (code : Byte) (p : List Byte) : Except RejectReason PayloadVariant :=
  let l := layoutOf (kindOf code)
  if p.length < layoutSize l then .error .truncatedPayload
  else
    match longPayloadError cfg l p.length with
    | some r => .error r
    | none =>
      match l with
      | .status => .ok (decodeStatus p)
      | .force => .ok (decodeForceControl p)
      | .heartbeat => .ok (decodeHeartbeat p)
      | .raw => .ok (.raw p)

/-! ### Payload encode (41_payload_codec.md R110 to R115) -/

/-- The pattern of 5.0, the default of `max_force` (R112; PRESUMED binary32, log 14). -/
def maxForceDefault : F32 := 0x40A00000

/-- The pattern of 0.0, the default of `hold_time` (R112). -/
def holdTimeDefault : F32 := 0x00000000

/-- A required field: `MissingRequiredField` where it is absent, never a silent zero (R115). -/
def required {α : Type} : Option α → Except EncodeError α
  | some v => .ok v
  | none => .error .missingRequiredField

/-- R111. The three reserved bytes are written as zero. -/
def encodeStatus (f : Fields) : Except EncodeError (List Byte) := do
  let forceValue ← required f.forceValue
  let forceRate ← required f.forceRate
  let position ← required f.position
  let velocity ← required f.velocity
  let motorEnabled ← required f.motorEnabled
  let positionReached ← required f.positionReached
  let stallDetected ← required f.stallDetected
  let emergencyStop ← required f.emergencyStop
  let errorCode ← required f.errorCode
  return bytesLe32 forceValue ++ bytesLe32 forceRate ++ bytesLe32 position ++ bytesLe32 velocity
    ++ [motorEnabled, positionReached, stallDetected, emergencyStop, errorCode] ++ [0, 0, 0]

/-- R112. `max_force` and `hold_time` have defaults. -/
def encodeForceControl (f : Fields) : Except EncodeError (List Byte) := do
  let mode ← required f.mode
  let targetForce ← required f.targetForce
  let forceRate ← required f.forceRate
  return [mode] ++ bytesLe32 targetForce ++ bytesLe32 forceRate
    ++ bytesLe32 (f.maxForce.getD maxForceDefault) ++ bytesLe32 (f.holdTime.getD holdTimeDefault)

/-- R113. -/
def encodeHeartbeat (f : Fields) : Except EncodeError (List Byte) := do
  let timestamp ← required f.timestamp
  let status ← required f.status
  return bytesLe32 timestamp ++ [status]

/-- R114. -/
def encodeRaw (f : Fields) : Except EncodeError (List Byte) :=
  if f.raw.length ≤ 255 then .ok f.raw else .error .payloadTooLong

/-- ENCODE_PAYLOAD (R110). -/
def encodePayload (code : Byte) (f : Fields) : Except EncodeError (List Byte) :=
  match layoutOf (kindOf code) with
  | .status => encodeStatus f
  | .force => encodeForceControl f
  | .heartbeat => encodeHeartbeat f
  | .raw => encodeRaw f

/-- The fields that belong to the record of a kind; every other line is no part of the operand (R110, log 12). -/
def restrictFields (l : Layout) (f : Fields) : Fields :=
  match l with
  | .status =>
    { forceValue := f.forceValue, forceRate := f.forceRate, position := f.position, velocity := f.velocity,
      motorEnabled := f.motorEnabled, positionReached := f.positionReached, stallDetected := f.stallDetected,
      emergencyStop := f.emergencyStop, errorCode := f.errorCode }
  | .force =>
    { mode := f.mode, targetForce := f.targetForce, forceRate := f.forceRate, maxForce := f.maxForce,
      holdTime := f.holdTime }
  | .heartbeat => { timestamp := f.timestamp, status := f.status }
  | .raw => { raw := f.raw }

/-! ### The numeric reason codes (60_exceptions.md R170) -/

/-- The codes of R170's table. They carry no meaning (92_eei_decisions.md D16). -/
def reasonCode : Reason → Nat
  | .ok => 0
  | .incomplete => 1
  | .reject .badHeader => 2
  | .reject .badTail => 3
  | .reject .lengthMismatch => 4
  | .reject .crcMismatch => 5
  | .reject .truncatedPayload => 6
  | .unknownKind => 7
  | .encode .missingRequiredField => 8
  | .encode .payloadTooLong => 9

/-- R170's column "an error?". -/
def reasonIsError : Reason → Bool
  | .ok => false
  | .incomplete => false
  | .reject _ => true
  | .unknownKind => false
  | .encode _ => true

end Sys2Proof.Machine
end

