-- ==== Sys2Proof/Decode.lean ====
section
/-! DEFINITION. Decoding what stands at the ports, total; the encoder after it; and the words of spec/opcode_table.json. -/

namespace Sys2Proof

open Sys2Proof.Machine

/-! ### The FRAME format (30_encoding.md R60, R71) -/

/-- Why a byte string is not one candidate frame. -/
inductive FrameError
  /-- Fewer than the 10 bytes of the smallest frame (R68). -/
  | tooShort
  /-- Byte 0 is not the header (R61). -/
  | noHeader
  /-- Not `10 + ` byte 1 bytes (R70). -/
  | sizeMismatch
deriving DecidableEq, Repr

/-- The FRAME row of a kind (30_encoding.md R71). -/
def frameInstr (kind : PacketKind) (timestamp : U32) (payload : List Byte) (crc : U16) (tail : Byte) : Instr :=
  match kind with
  | .handshake => .handshake timestamp payload crc tail
  | .status => .status timestamp payload crc tail
  | .alert => .alert timestamp payload crc tail
  | .complete => .complete timestamp payload crc tail
  | .forceControl => .forceControl timestamp payload crc tail
  | .positionControl => .positionControl timestamp payload crc tail
  | .hybridControl => .hybridControl timestamp payload crc tail
  | .parameterSet => .parameterSet timestamp payload crc tail
  | .emergencyStop => .emergencyStop timestamp payload crc tail
  | .response => .response timestamp payload crc tail
  | .heartbeat => .heartbeat timestamp payload crc tail
  | .unknown c => .unknown c timestamp payload crc tail

/-- A byte string that is one candidate frame is the FRAME row its type byte selects, with the fields of R60. Whether the
tail and the checksum are right is decided by VALIDATE, not here (30_encoding.md section 8). -/
def decodeFrame (r : List Byte) : Except FrameError Instr :=
  let l := (byteAt r 1).toNat
  if r.length < 10 then .error .tooShort
  else if byteAt r 0 ≠ header then .error .noHeader
  else if r.length ≠ frameSize l then .error .sizeMismatch
  else .ok (frameInstr (kindOf (byteAt r 2)) (le32 r 3) (slice r 7 (7 + l)) (le16 r (7 + l)) (byteAt r (9 + l)))

/-! ### The CMD format (30_encoding.md R82) -/

/-- The operation a request selects, with the operand lines R82 gives it. -/
def decodeRequest (q : Request) : Instr :=
  if q.cmd = 0 then .crc16 q.data
  else if q.cmd = 1 then .push q.b
  else if q.cmd = 2 then .feed q.data
  else if q.cmd = 3 then .reset
  else if q.cmd = 4 then .validate q.data
  else if q.cmd = 5 then .decode q.code q.data
  else if q.cmd = 6 then .encode q.code (restrictFields (layoutOf (kindOf q.code)) q.fields) q.nowMs
  else .reservedCmd7

/-- The instruction an input is. A chunk that is exactly one candidate frame is its FRAME row; any other chunk is the FEED
of its bytes (log 3, 4). -/
def decode : Input → Instr
  | .command q => decodeRequest q
  | .wire chunk =>
    match decodeFrame chunk with
    | .ok i => i
    | .error _ => .feed chunk

/-! ### The encoder -/

/-- The bytes of a FRAME row with type code `code` (30_encoding.md R60). -/
def wireOf (code : Byte) (timestamp : U32) (payload : List Byte) (crc : U16) (tail : Byte) : Input :=
  .wire (frameBytes code timestamp payload crc tail)

/-- The input of an instruction: the select codes of R82, the frame bytes of R60 with the type codes of R71. -/
def encode : Instr → Input
  | .crc16 data => .command { cmd := 0, data := data }
  | .push b => .command { cmd := 1, b := b }
  | .feed chunk => .command { cmd := 2, data := chunk }
  | .reset => .command { cmd := 3 }
  | .validate r => .command { cmd := 4, data := r }
  | .decode code payload => .command { cmd := 5, code := code, data := payload }
  | .encode code fields nowMs => .command { cmd := 6, code := code, fields := fields, nowMs := nowMs }
  | .reservedCmd7 => .command { cmd := 7 }
  | .handshake ts p crc tail => wireOf 0x00 ts p crc tail
  | .status ts p crc tail => wireOf 0x10 ts p crc tail
  | .alert ts p crc tail => wireOf 0x20 ts p crc tail
  | .complete ts p crc tail => wireOf 0x21 ts p crc tail
  | .forceControl ts p crc tail => wireOf 0x30 ts p crc tail
  | .positionControl ts p crc tail => wireOf 0x31 ts p crc tail
  | .hybridControl ts p crc tail => wireOf 0x32 ts p crc tail
  | .parameterSet ts p crc tail => wireOf 0x40 ts p crc tail
  | .emergencyStop ts p crc tail => wireOf 0x50 ts p crc tail
  | .response ts p crc tail => wireOf 0x80 ts p crc tail
  | .heartbeat ts p crc tail => wireOf 0x90 ts p crc tail
  | .unknown code ts p crc tail => wireOf code ts p crc tail

/-! ### The opcode table (spec/opcode_table.json) -/

/-- Byte `i` of a number, byte 0 least significant (30_encoding.md R60). -/
def byteOf (w i : Nat) : Byte := BitVec.ofNat 8 (w >>> (8 * i))

/-- The input of a table word: a select code for a CMD row (one byte; bits 7 to 3 are no part of it, log 26), the frame
bytes for a FRAME row, zero above `nbits`, as many as its length byte declares. -/
def tableInput (nbits w : Nat) : Input :=
  if nbits ≤ 8 then .command { cmd := BitVec.ofNat 3 w }
  else
    let v := w % 2 ^ nbits
    .wire ((List.range (frameSize (byteOf v 1).toNat)).map (byteOf v))

/-- The instruction of a table word: a request decodes whatever it holds, a byte string only if it is one candidate. -/
def decodeTableWord (nbits w : Nat) : Option Instr :=
  match tableInput nbits w with
  | .command q => some (decodeRequest q)
  | .wire r =>
    match decodeFrame r with
    | .ok i => some i
    | .error _ => none

/-- The low three bytes of a frame as the table numbers them, or the select code (30_encoding.md section 8). -/
def tableWord : Input → Nat
  | .command q => q.cmd.toNat
  | .wire r => (byteAt r 0).toNat + 256 * (byteAt r 1).toNat + 65536 * (byteAt r 2).toNat

/-- `(mask, match)` of the row of an instruction, from spec/opcode_table.json. -/
def tableRow : Instr → Nat × Nat
  | .crc16 _ => (0x7, 0x0)
  | .push _ => (0x7, 0x1)
  | .feed _ => (0x7, 0x2)
  | .reset => (0x7, 0x3)
  | .validate _ => (0x7, 0x4)
  | .decode _ _ => (0x7, 0x5)
  | .encode _ _ _ => (0x7, 0x6)
  | .reservedCmd7 => (0x7, 0x7)
  | .handshake _ _ _ _ => (0xFF00FF, 0x0000AA)
  | .status _ _ _ _ => (0xFF00FF, 0x1000AA)
  | .alert _ _ _ _ => (0xFF00FF, 0x2000AA)
  | .complete _ _ _ _ => (0xFF00FF, 0x2100AA)
  | .forceControl _ _ _ _ => (0xFF00FF, 0x3000AA)
  | .positionControl _ _ _ _ => (0xFF00FF, 0x3100AA)
  | .hybridControl _ _ _ _ => (0xFF00FF, 0x3200AA)
  | .parameterSet _ _ _ _ => (0xFF00FF, 0x4000AA)
  | .emergencyStop _ _ _ _ => (0xFF00FF, 0x5000AA)
  | .response _ _ _ _ => (0xFF00FF, 0x8000AA)
  | .heartbeat _ _ _ _ => (0xFF00FF, 0x9000AA)
  | .unknown _ _ _ _ _ => (0x0000FF, 0x0000AA)

end Sys2Proof
end

