-- ==== Sys2Proof/Machine/Flags.lean ====
section
/-! DEFINITION. The views of the state. The hardware keeps no flag (10_state.md R26); cursor, phase and pending are
functions of `buf`, and a FEED outcome has a reason (60_exceptions.md R170). -/

namespace Sys2Proof.Machine

/-- The eight names of 10_state.md R22. -/
inductive Phase
  | seekHeader
  | readLength
  | readType
  | readTimestamp
  | readPayload
  | readCrc
  | readTail
  | resolve
deriving DecidableEq, Repr

/-- 10_state.md R21. -/
def cursor (buf : List Byte) : Nat := buf.length

/-- 10_state.md R26, 60_exceptions.md R171: a partial frame is held (`Incomplete`). -/
def pending (buf : List Byte) : Bool := decide (0 < buf.length)

/-- The declared payload length of the candidate at the front, once its length byte is held. -/
def declaredLength (buf : List Byte) : Nat := (byteAt buf 1).toNat

/-- 10_state.md R22: the field the next byte belongs to. -/
def phase (buf : List Byte) : Phase :=
  let n := buf.length
  let l := declaredLength buf
  if n = 0 then .seekHeader
  else if n = 1 then .readLength
  else if n = 2 then .readType
  else if n ≤ 6 then .readTimestamp
  else if n < 7 + l then .readPayload
  else if n < 9 + l then .readCrc
  else if n = 9 + l then .readTail
  else .resolve

/-- The at-rest form of `buf` (10_state.md R23): empty, or a header byte and fewer bytes than its own candidate. -/
def atRest (buf : List Byte) : Bool :=
  buf.isEmpty ||
    (byteAt buf 0 == header && (decide (buf.length < 2) || decide (buf.length < frameSize (declaredLength buf))))

/-- The form every reachable memory has. -/
abbrev Memory.wf (buf : List Byte) : Bool := atRest buf

/-- The reason of an outcome (60_exceptions.md R170): none for a decoded packet of a named kind, `UnknownKind` for an
unknown one (R177), the reject reason otherwise. -/
def outcomeReason : FeedOutcome → Reason
  | .decoded p =>
    match p.kind with
    | .unknown _ => .unknownKind
    | .handshake => .ok
    | .status => .ok
    | .alert => .ok
    | .complete => .ok
    | .forceControl => .ok
    | .positionControl => .ok
    | .hybridControl => .ok
    | .parameterSet => .ok
    | .emergencyStop => .ok
    | .response => .ok
    | .heartbeat => .ok
  | .rejected r _ => .reject r

end Sys2Proof.Machine
end

