-- ==== Sys2Proof/Machine/Ops.lean ====
section
/-! DEFINITION. The shared operations: returning a result, the buffer's accesses, the checksum, the Validator, the
rejection sequence (60_exceptions.md R183, the analogue of taking an exception), the resolve loop of FEED and the frame
builder of ENCODE. The families only wrap these. -/

namespace Sys2Proof.Machine

/-- The machine's configuration: the spec's decisions D5 to D8 (log 6 to 9). -/
def config : Config := {}

/-! ### Interface -/

/-- End the operation with result `v` (00_scope.md R11). -/
def State.ret (s : State) (v : Result) : State := { s with returned := v }

/-- Replace the residual buffer. -/
def State.setBuf (s : State) (buf : List Byte) : State := { s with buf := buf }

/-- The owner issues one more call (20_memory.md R50): it is taken after those already issued. -/
def State.post (s : State) (x : Input) : State := { s with port := s.port ++ [x] }

/-! ### The buffer as a memory (20_memory.md R29, R40) -/

/-- Read the byte at an offset; there is no byte outside 0 .. |buf| - 1 (10_state.md R29). -/
def readByte (buf : List Byte) (offset : Nat) : Option Byte := buf[offset]?

/-- R121: the chunk goes to the end. -/
def appendChunk (buf chunk : List Byte) : List Byte := buf ++ chunk

/-- R129: the bytes in front of `off` are gone. -/
def dropFront (buf : List Byte) (off : Nat) : List Byte := buf.drop off

/-! ### The Checksum Engine (40_checksum.md) -/

/-- `CRC_INIT`. -/
def crcInit : U16 := 0xFFFF

/-- `CRC_POLY`. -/
def crcPoly : U16 := 0xA001

/-- R92: test bit 0, shift right, then exclusive-or. -/
def crcBit (r : U16) : U16 := if r.getLsbD 0 then (r >>> 1) ^^^ crcPoly else r >>> 1

/-- R91: `step(r, b)`, eight bit steps after the exclusive-or into the low byte. -/
def crcByte (r : U16) (b : Byte) : U16 :=
  crcBit (crcBit (crcBit (crcBit (crcBit (crcBit (crcBit (crcBit (r ^^^ b.zeroExtend 16))))))))

/-- R90: a left fold in sequence order. -/
def crc16 (data : List Byte) : U16 := data.foldl crcByte crcInit

/-! ### The Frame Validator (43_frame_validator.md R140) -/

/-- The tail check (R143) and the checksum check (R144) in the implementation's order (R146, log 6). -/
def firstFailure (cfg : Config) (tailBad crcBad : Bool) : Option RejectReason :=
  match cfg.rejectOrder with
  | .tailFirst => if tailBad then some .badTail else if crcBad then some .crcMismatch else none
  | .crcFirst => if crcBad then some .crcMismatch else if tailBad then some .badTail else none

/-- VALIDATE (R140): length (R141), header (R142), then tail and checksum; the fields on success (R145). -/
def validate (cfg : Config) (r : List Byte) : Except RejectReason Validated :=
  let l := (byteAt r 1).toNat
  if r.length < 10 ∨ r.length ≠ frameSize l then .error .lengthMismatch
  else if byteAt r 0 ≠ header then .error .badHeader
  else
    match firstFailure cfg (byteAt r (9 + l) != tailByte) (crc16 (slice r 1 (7 + l)) != le16 r (7 + l)) with
    | some e => .error e
    | none => .ok { type := byteAt r 2, timestamp := le32 r 3, payload := slice r 7 (7 + l) }

/-! ### Resolving a candidate (42_frame_assembler.md R125 to R128) -/

/-- What resolving one candidate yields: the outcome emitted and the movement of `off`. -/
structure Verdict where
  outcome : FeedOutcome
  advance : Nat
deriving DecidableEq, Repr

/-- What a rejection reports as `raw_bytes` (R127, log 7). -/
def rawBytes (cfg : Config) (cand : List Byte) (advance : Nat) : List Byte :=
  match cfg.rawBytesOf with
  | .wholeCandidate => cand
  | .consumedBytes => cand.take advance

/-- The rejection sequence, the analogue of trap entry (60_exceptions.md R183): the outcome, and how far `off` moves.
Nothing is saved and no mode changes; going on afterwards is the scan (R184). -/
def reject (cfg : Config) (reason : RejectReason) (cand : List Byte) (advance : Nat) : Verdict :=
  { outcome := .rejected reason (rawBytes cfg cand advance), advance := advance }

/-- How far a codec failure moves `off` (R128, log 8). -/
def codecAdvance (cfg : Config) (cand : List Byte) : Nat :=
  match cfg.truncatedAdvance with
  | .wholeFrame => cand.length
  | .headerByte => 1

/-- Resolve one full candidate: Validator (R127), then codec (R128), then success (R126). -/
def resolve (cfg : Config) (cand : List Byte) : Verdict :=
  match validate cfg cand with
  | .error reason => reject cfg reason cand 1
  | .ok v =>
    match decodePayload cfg v.type v.payload with
    | .error reason => reject cfg reason cand (codecAdvance cfg cand)
    | .ok fields =>
      { outcome := .decoded { kind := kindOf v.type, timestamp := v.timestamp, fields := fields }
        advance := cand.length }

/-- The candidate at a header byte, once all of it has arrived (R123, R124, R125). -/
def candidate? (w : List Byte) : Option (List Byte) :=
  if w.length < 7 then none
  else if w.length < frameSize (byteAt w 1).toNat then none
  else some (w.take (frameSize (byteAt w 1).toNat))

/-- The loop of FEED (R120) on the bytes from `off` on. `skip` counts the bytes of a resolved frame that `off` still has
to pass. Returns the outcomes and what stays in the buffer. -/
def resolveFrom (cfg : Config) : Nat → List Byte → List FeedOutcome × List Byte
  | _, [] => ([], [])
  | skip + 1, _ :: rest => resolveFrom cfg skip rest
  | 0, b :: rest =>
    if b ≠ header then resolveFrom cfg 0 rest
    else
      match candidate? (b :: rest) with
      | none => ([], b :: rest)
      | some cand =>
        let v := resolve cfg cand
        let r := resolveFrom cfg (v.advance - 1) rest
        (v.outcome :: r.1, r.2)

/-- FEED (R120): append, then resolve until the loop has to wait. -/
def feed (cfg : Config) (buf chunk : List Byte) : List FeedOutcome × List Byte :=
  resolveFrom cfg 0 (appendChunk buf chunk)

/-- FEED as an operation on the state: `buf` and the outcome list. -/
def State.feed (s : State) (chunk : List Byte) : State :=
  let r := Sys2Proof.Machine.feed config s.buf chunk
  (s.setBuf r.2).ret (.outcomes r.1)

/-! ### Building a frame (44_facade.md) -/

/-- R153, R154: the frame of a payload. -/
def buildFrame (code : Byte) (timestamp : U32) (payload : List Byte) : List Byte :=
  frameBytes code timestamp payload (crc16 (frameBody code timestamp payload)) tailByte

/-- ENCODE (R151). The stamp is `now_ms mod 2^32` (R152). -/
def encodeFrame (code : Byte) (f : Fields) (nowMs : Nat) : Except EncodeError (List Byte) :=
  match encodePayload code f with
  | .error e => .error e
  | .ok p => .ok (buildFrame code (BitVec.ofNat 32 nowMs) p)

end Sys2Proof.Machine
end

