-- ==== Sys2Proof/Machine/Assembler.lean ====
section
/-! DEFINITION. The Frame Assembler's operations (42_frame_assembler.md). -/

namespace Sys2Proof.Machine

/-- FEED (R120), the Facade's `feed` (44_facade.md R159). -/
def execFeed (chunk : List Byte) (s : State) : Host.Outcome State Fault Refusal :=
  .next (s.feed chunk)

/-- PUSH (R130): `PUSH(b) = FEED([b])`. -/
def execPush (b : Byte) (s : State) : Host.Outcome State Fault Refusal :=
  .next (s.feed [b])

end Sys2Proof.Machine
end

