-- ==== Sys2Proof/Machine/Checksum.lean ====
section
/-! DEFINITION. The Checksum Engine's operation (40_checksum.md). -/

namespace Sys2Proof.Machine

/-- CRC16 (R90): the checksum of the bytes; no state is written (R94). -/
def execCrc16 (data : List Byte) (s : State) : Host.Outcome State Fault Refusal :=
  .next (s.ret (.checksum (crc16 data)))

end Sys2Proof.Machine
end

