-- ==== Sys2Proof/Machine/Codec.lean ====
section
/-! DEFINITION. The Payload Codec Registry's operation (41_payload_codec.md). -/

namespace Sys2Proof.Machine

/-- DECODE (R100): the variant and the kind of the code; no state is written. -/
def execDecode (code : Byte) (payload : List Byte) (s : State) : Host.Outcome State Fault Refusal :=
  .next (s.ret (.variant (kindOf code) (decodePayload config code payload)))

end Sys2Proof.Machine
end

