-- ==== Sys2Proof/Machine/Facade.lean ====
section
/-! DEFINITION. The Protocol Facade's operations (44_facade.md), and the reserved select code. -/

namespace Sys2Proof.Machine

/-- ENCODE (R151): a frame or an error; no state is written (R156). -/
def execEncode (code : Byte) (fields : Fields) (nowMs : Nat) (s : State) : Host.Outcome State Fault Refusal :=
  .next (s.ret (.frame (encodeFrame code fields nowMs)))

/-- RESET (R160): `buf <- []`, no result, always succeeds. -/
def execReset (s : State) : Host.Outcome State Fault Refusal :=
  .next ((s.setBuf []).ret .nothing)

/-- RESERVED_CMD7: "refused: no operation" (30_encoding.md R82, 93 U8). -/
def execReservedCmd7 (_ : State) : Host.Outcome State Fault Refusal :=
  .refused .reservedCommand

end Sys2Proof.Machine
end

