-- ==== Sys2Proof/Machine/Frames.lean ====
section
/-! DEFINITION. The FRAME rows: one complete candidate frame arrives on the wire. Its effect is that of the FEED of its
bytes (00_scope.md R3, 42_frame_assembler.md R120): with nothing buffered the frame is judged at once, and a well-formed one
is decoded by its kind's rule in 41_payload_codec.md; bytes already buffered come first (70_reset_and_hazards.md R215). -/

namespace Sys2Proof.Machine

/-- A frame with the given fields arrives. -/
def State.receive (s : State) (code : Byte) (timestamp : U32) (payload : List Byte) (crc : U16) (tail : Byte) : State :=
  s.feed (frameBytes code timestamp payload crc tail)

/-- HANDSHAKE: type code `0x00`, payload by R106. -/
def execHandshake (timestamp : U32) (payload : List Byte) (crc : U16) (tail : Byte) (s : State) :
    Host.Outcome State Fault Refusal :=
  .next (s.receive 0x00 timestamp payload crc tail)

/-- STATUS: type code `0x10`, payload by R103. -/
def execStatus (timestamp : U32) (payload : List Byte) (crc : U16) (tail : Byte) (s : State) :
    Host.Outcome State Fault Refusal :=
  .next (s.receive 0x10 timestamp payload crc tail)

/-- ALERT: type code `0x20`, payload by R106. -/
def execAlert (timestamp : U32) (payload : List Byte) (crc : U16) (tail : Byte) (s : State) :
    Host.Outcome State Fault Refusal :=
  .next (s.receive 0x20 timestamp payload crc tail)

/-- COMPLETE: type code `0x21`, payload by R106. -/
def execComplete (timestamp : U32) (payload : List Byte) (crc : U16) (tail : Byte) (s : State) :
    Host.Outcome State Fault Refusal :=
  .next (s.receive 0x21 timestamp payload crc tail)

/-- FORCE_CONTROL: type code `0x30`, payload by R104. -/
def execForceControl (timestamp : U32) (payload : List Byte) (crc : U16) (tail : Byte) (s : State) :
    Host.Outcome State Fault Refusal :=
  .next (s.receive 0x30 timestamp payload crc tail)

/-- POSITION_CONTROL: type code `0x31`, payload by R106. -/
def execPositionControl (timestamp : U32) (payload : List Byte) (crc : U16) (tail : Byte) (s : State) :
    Host.Outcome State Fault Refusal :=
  .next (s.receive 0x31 timestamp payload crc tail)

/-- HYBRID_CONTROL: type code `0x32`, payload by R106. -/
def execHybridControl (timestamp : U32) (payload : List Byte) (crc : U16) (tail : Byte) (s : State) :
    Host.Outcome State Fault Refusal :=
  .next (s.receive 0x32 timestamp payload crc tail)

/-- PARAMETER_SET: type code `0x40`, payload by R106. -/
def execParameterSet (timestamp : U32) (payload : List Byte) (crc : U16) (tail : Byte) (s : State) :
    Host.Outcome State Fault Refusal :=
  .next (s.receive 0x40 timestamp payload crc tail)

/-- EMERGENCY_STOP: type code `0x50`, payload by R106. -/
def execEmergencyStop (timestamp : U32) (payload : List Byte) (crc : U16) (tail : Byte) (s : State) :
    Host.Outcome State Fault Refusal :=
  .next (s.receive 0x50 timestamp payload crc tail)

/-- RESPONSE: type code `0x80`, payload by R106. -/
def execResponse (timestamp : U32) (payload : List Byte) (crc : U16) (tail : Byte) (s : State) :
    Host.Outcome State Fault Refusal :=
  .next (s.receive 0x80 timestamp payload crc tail)

/-- HEARTBEAT: type code `0x90`, payload by R105. -/
def execHeartbeat (timestamp : U32) (payload : List Byte) (crc : U16) (tail : Byte) (s : State) :
    Host.Outcome State Fault Refusal :=
  .next (s.receive 0x90 timestamp payload crc tail)

/-- UNKNOWN: any unnamed type code, payload by R107. -/
def execUnknown (code : Byte) (timestamp : U32) (payload : List Byte) (crc : U16) (tail : Byte) (s : State) :
    Host.Outcome State Fault Refusal :=
  .next (s.receive code timestamp payload crc tail)

end Sys2Proof.Machine
end

