-- ==== Sys2Proof/Machine/Validator.lean ====
section
/-! DEFINITION. The Frame Validator's operation (43_frame_validator.md). -/

namespace Sys2Proof.Machine

/-- VALIDATE (R140): total, reads and writes no state (R147). -/
def execValidate (r : List Byte) (s : State) : Host.Outcome State Fault Refusal :=
  .next (s.ret (.validated (validate config r)))

end Sys2Proof.Machine
end

