-- ==== Sys2Proof/Machine/Dispatch.lean ====
section
/-! DEFINITION. The dispatch: one arm per constructor of Instr, one call of its meaning each. -/

namespace Sys2Proof.Machine

def exec (i : Instr) (s : State) : Host.Outcome State Fault Refusal :=
  match i with
  | .crc16 data => Sys2Proof.Machine.execCrc16 data s
  | .push b => Sys2Proof.Machine.execPush b s
  | .feed chunk => Sys2Proof.Machine.execFeed chunk s
  | .reset => Sys2Proof.Machine.execReset s
  | .validate r => Sys2Proof.Machine.execValidate r s
  | .decode code payload => Sys2Proof.Machine.execDecode code payload s
  | .encode code fields nowMs => Sys2Proof.Machine.execEncode code fields nowMs s
  | .reservedCmd7 => Sys2Proof.Machine.execReservedCmd7 s
  | .handshake timestamp payload crc tail => Sys2Proof.Machine.execHandshake timestamp payload crc tail s
  | .status timestamp payload crc tail => Sys2Proof.Machine.execStatus timestamp payload crc tail s
  | .alert timestamp payload crc tail => Sys2Proof.Machine.execAlert timestamp payload crc tail s
  | .complete timestamp payload crc tail => Sys2Proof.Machine.execComplete timestamp payload crc tail s
  | .forceControl timestamp payload crc tail => Sys2Proof.Machine.execForceControl timestamp payload crc tail s
  | .positionControl timestamp payload crc tail => Sys2Proof.Machine.execPositionControl timestamp payload crc tail s
  | .hybridControl timestamp payload crc tail => Sys2Proof.Machine.execHybridControl timestamp payload crc tail s
  | .parameterSet timestamp payload crc tail => Sys2Proof.Machine.execParameterSet timestamp payload crc tail s
  | .emergencyStop timestamp payload crc tail => Sys2Proof.Machine.execEmergencyStop timestamp payload crc tail s
  | .response timestamp payload crc tail => Sys2Proof.Machine.execResponse timestamp payload crc tail s
  | .heartbeat timestamp payload crc tail => Sys2Proof.Machine.execHeartbeat timestamp payload crc tail s
  | .unknown code timestamp payload crc tail => Sys2Proof.Machine.execUnknown code timestamp payload crc tail s

end Sys2Proof.Machine
end

