-- ==== Sys2Proof/Machine/Step.lean ====
section
/-! DEFINITION. One step: the oldest call of the owner is taken from the port, decoded and run, whole (20_memory.md R48, R50). -/

namespace Sys2Proof.Machine

/-- With no call pending nothing happens: the engine "starts no background activity" (60_exceptions.md R180, log 5). -/
def step (s : State) : Host.Outcome State Fault Refusal :=
  match s.port with
  | [] => .next s
  | x :: rest => exec (decode x) { s with port := rest }

/-- The state whose next call is the one the table word stands for. -/
def State.withFetchWord (s : State) (nbits w : Nat) : State :=
  { s with port := tableInput nbits w :: s.port }

end Sys2Proof.Machine
end

