-- ==== Sys2Proof/Machine/Instances.lean ====
section
/-! DEFINITION. Several engine instances side by side (10_state.md R33, 60_exceptions.md R190): a list of states, each with an
owner of its own; one of them takes a step. They have no identifiers and share nothing (log 24). -/

namespace Sys2Proof.Machine

/-- A session starts: one more instance, in the reset state (70_reset_and_hazards.md R201). -/
def createInstance (l : List State) : List State := l ++ [State.reset]

/-- Instance `k` takes a step. -/
def stepInstance (l : List State) (k : Fin l.length) : Host.Outcome (List State) Fault Refusal :=
  match step l[k] with
  | .next s => .next (l.set k s)
  | .fault r => .fault r
  | .refused r => .refused r

end Sys2Proof.Machine
end

