-- ==== Sys2Proof/Safety.lean ====
section
/-! DEFINITION. What claims mean by a safe state and a reachable one. No operation faults, so a state is safe when its
residual buffer has the at-rest form of 10_state.md R23. -/

namespace Sys2Proof

open Sys2Proof.Machine

/-- The at-rest invariant of 10_state.md R23. -/
def Safe (s : State) : Prop := Memory.wf s.buf = true

/-- The states of an instance under any owner: creation (70_reset_and_hazards.md R201), a call issued, a step. -/
inductive Reachable : State → Prop
  | created : Reachable State.reset
  | posted {s : State} (x : Input) : Reachable s → Reachable (s.post x)
  | stepped {s t : State} : Reachable s → step s = .next t → Reachable t

end Sys2Proof
end

