-- ==== Sys2Proof/WellFormed.lean ====
section
/-! DEFINITION. The instructions that stand for something: the checks the types do not make. -/

namespace Sys2Proof

open Sys2Proof.Machine

/-- The length field is one byte (30_encoding.md R62). -/
def payloadFits (payload : List Byte) : Bool := decide (payload.length ≤ 255)

/-- `Unknown(c)` is formed only for an unnamed code (41_payload_codec.md R101). -/
def codeIsUnnamed (code : Byte) : Bool := decide (kindOf code = .unknown code)

/-- The operand of ENCODE is the record of its kind and nothing else (41_payload_codec.md R110). -/
def fieldsFitCode (code : Byte) (f : Fields) : Bool := decide (restrictFields (layoutOf (kindOf code)) f = f)

/-- Well-formed instructions. -/
def WellFormed : Instr → Bool
  | .crc16 _ => true
  | .push _ => true
  | .feed _ => true
  | .reset => true
  | .validate _ => true
  | .decode _ _ => true
  | .encode code fields _ => fieldsFitCode code fields
  | .reservedCmd7 => true
  | .handshake _ p _ _ => payloadFits p
  | .status _ p _ _ => payloadFits p
  | .alert _ p _ _ => payloadFits p
  | .complete _ p _ _ => payloadFits p
  | .forceControl _ p _ _ => payloadFits p
  | .positionControl _ p _ _ => payloadFits p
  | .hybridControl _ p _ _ => payloadFits p
  | .parameterSet _ p _ _ => payloadFits p
  | .emergencyStop _ p _ _ => payloadFits p
  | .response _ p _ _ => payloadFits p
  | .heartbeat _ p _ _ => payloadFits p
  | .unknown code _ p _ _ => codeIsUnnamed code && payloadFits p

end Sys2Proof
end

