-- ==== Sys2Proof/Certificates/Slice0/Obligations.lean ====
section
/-! DEFINITION. The statements for the provers, with the small reference definitions they are written in: the spec's
arithmetic on natural numbers, its bytes by division, its words by concatenation, and its offset loop, each independent of
how the machine computes them. An operation's result is seen in `returned` (log 2). -/

namespace Sys2Proof.Reference

open Sys2Proof.Machine

/-- One of the eight iterations of R90, on a natural number. -/
def crcIteration (r : Nat) : Nat := if r % 2 = 1 then (r / 2) ^^^ 0xA001 else r / 2

/-- R90 on natural numbers: exclusive-or the byte, then eight iterations, for each byte in order. -/
def crc : Nat → List Byte → Nat
  | r, [] => r
  | r, b :: rest => crc (crcIteration^[8] (r ^^^ b.toNat)) rest

/-- The checksum as 16 bits. -/
def checksum (data : List Byte) : U16 := BitVec.ofNat 16 (crc 0xFFFF data)

/-- The four bytes of a number, low byte first. -/
def bytes4 (v : Nat) : List Byte :=
  [BitVec.ofNat 8 v, BitVec.ofNat 8 (v / 0x100), BitVec.ofNat 8 (v / 0x10000), BitVec.ofNat 8 (v / 0x1000000)]

/-- The two bytes of a number, low byte first. -/
def bytes2 (v : Nat) : List Byte := [BitVec.ofNat 8 v, BitVec.ofNat 8 (v / 0x100)]

/-- Byte `i` of a payload that holds one. -/
def at' (p : List Byte) (i : Nat) : Byte := (p[i]?).getD 0

/-- The little-endian word at an offset, as the concatenation of its four bytes. -/
def word (p : List Byte) (i : Nat) : U32 := at' p (i + 3) ++ at' p (i + 2) ++ at' p (i + 1) ++ at' p i

/-- Length, type, timestamp and payload (R66), the timestamp taken modulo 2^32 (R152). -/
def body (code : Byte) (ms : Nat) (p : List Byte) : List Byte :=
  [BitVec.ofNat 8 p.length, code] ++ bytes4 (ms % 2 ^ 32) ++ p

/-- The frame of R153. -/
def frame (code : Byte) (ms : Nat) (p : List Byte) : List Byte :=
  [0xAA] ++ body code ms p ++ bytes2 (crc 0xFFFF (body code ms p)) ++ [0x55]

/-- A frame of R60 with any checksum field and tail. -/
def candidate (code : Byte) (ts : U32) (p : List Byte) (crcField : U16) (tail : Byte) : List Byte :=
  [0xAA, BitVec.ofNat 8 p.length, code] ++ bytes4 ts.toNat ++ p ++ bytes2 crcField.toNat ++ [tail]

/-- A full candidate (R125): a header byte and as many bytes as the length byte declares. -/
def IsCandidate (c : List Byte) : Prop := at' c 0 = 0xAA ∧ c.length = 10 + (at' c 1).toNat

/-- A candidate that is not full yet (R123, R124): it starts with the header, and its length byte is not held or declares
more bytes than there are. -/
def IsPartial (w : List Byte) : Prop :=
  w[0]? = some 0xAA ∧ (w.length < 2 ∨ w.length < 10 + (at' w 1).toNat)

/-- Bytes among which the scan finds no header (R122). -/
def NoHeader (w : List Byte) : Prop := ∀ b ∈ w, b ≠ 0xAA

/-- The variant a payload decodes to (R103 to R107), read by concatenation. -/
def variant (code : Byte) (p : List Byte) : PayloadVariant :=
  if code = 0x10 then
    .status (word p 0) (word p 4) (word p 8) (word p 12) (at' p 16) (at' p 17) (at' p 18) (at' p 19) (at' p 20)
  else if code = 0x30 then .forceControl (at' p 0) (word p 1) (word p 5) (word p 9) (word p 13)
  else if code = 0x90 then .heartbeat (word p 0) (at' p 4)
  else .raw p

/-- `MINLEN` (R102). -/
def minLen (code : Byte) : Nat :=
  if code = 0x10 then 24 else if code = 0x30 then 17 else if code = 0x90 then 5 else 0

/-- The variant that holds the values of a field record, defaults filled in (R118). -/
def sent (code : Byte) (f : Fields) : PayloadVariant :=
  if code = 0x10 then
    .status (f.forceValue.getD 0) (f.forceRate.getD 0) (f.position.getD 0) (f.velocity.getD 0)
      (f.motorEnabled.getD 0) (f.positionReached.getD 0) (f.stallDetected.getD 0) (f.emergencyStop.getD 0)
      (f.errorCode.getD 0)
  else if code = 0x30 then
    .forceControl (f.mode.getD 0) (f.targetForce.getD 0) (f.forceRate.getD 0) (f.maxForce.getD 0x40A00000)
      (f.holdTime.getD 0)
  else if code = 0x90 then .heartbeat (f.timestamp.getD 0) (f.status.getD 0)
  else .raw f.raw

/-- The required fields of the kind are present (R111 to R113), or the raw payload fits (R114). -/
def FieldsPresent (code : Byte) (f : Fields) : Prop :=
  if code = 0x10 then
    f.forceValue.isSome ∧ f.forceRate.isSome ∧ f.position.isSome ∧ f.velocity.isSome ∧ f.motorEnabled.isSome
      ∧ f.positionReached.isSome ∧ f.stallDetected.isSome ∧ f.emergencyStop.isSome ∧ f.errorCode.isSome
  else if code = 0x30 then f.mode.isSome ∧ f.targetForce.isSome ∧ f.forceRate.isSome
  else if code = 0x90 then f.timestamp.isSome ∧ f.status.isSome
  else f.raw.length ≤ 255

/-- The field record that holds the values of a variant. -/
def fieldsOf : PayloadVariant → Fields
  | .status fv fr po ve me pr sd es ec =>
    { forceValue := some fv, forceRate := some fr, position := some po, velocity := some ve, motorEnabled := some me,
      positionReached := some pr, stallDetected := some sd, emergencyStop := some es, errorCode := some ec }
  | .forceControl m tf fr mf ht =>
    { mode := some m, targetForce := some tf, forceRate := some fr, maxForce := some mf, holdTime := some ht }
  | .heartbeat t st => { timestamp := some t, status := some st }
  | .raw b => { raw := b }

/-- The payload has the exact size of its layout and zero reserved bytes (R118). -/
def ExactPayload (code : Byte) (p : List Byte) : Prop :=
  if code = 0x10 then p.length = 24 ∧ at' p 21 = 0 ∧ at' p 22 = 0 ∧ at' p 23 = 0
  else if code = 0x30 then p.length = 17
  else if code = 0x90 then p.length = 5
  else True

/-- SCAN of R120: move `off` over every byte that is not the header. -/
def scan (buf : List Byte) : Nat → Nat → Nat
  | 0, off => off
  | fuel + 1, off => if off < buf.length ∧ at' buf off ≠ 0xAA then scan buf fuel (off + 1) else off

/-- The loop of R120, statement by statement, for at most `fuel` passes: the outcomes and the final `off`. -/
def loop (buf : List Byte) : Nat → Nat → List FeedOutcome → List FeedOutcome × Nat
  | 0, off, out => (out, off)
  | fuel + 1, start, out =>
    let off := scan buf buf.length start
    if off = buf.length then (out, off)
    else if buf.length - off < 7 then (out, off)
    else if buf.length - off < 10 + (at' buf (off + 1)).toNat then (out, off)
    else
      let size := 10 + (at' buf (off + 1)).toNat
      let cand := (buf.drop off).take size
      match validate config cand with
      | .error reason => loop buf fuel (off + 1) (out ++ [.rejected reason cand])
      | .ok v =>
        match decodePayload config v.type v.payload with
        | .error reason => loop buf fuel (off + size) (out ++ [.rejected reason cand])
        | .ok fields =>
          loop buf fuel (off + size)
            (out ++ [.decoded { kind := kindOf v.type, timestamp := v.timestamp, fields := fields }])

/-- One PUSH per byte: the outcome lists joined, and the buffer at the end. -/
def pushAll : List Byte → State → Option (List FeedOutcome × List Byte)
  | [], s => some ([], s.buf)
  | b :: rest, s =>
    match exec (.push b) s with
    | .next t =>
      match t.returned with
      | .outcomes os => (pushAll rest t).map fun r => (os ++ r.1, r.2)
      | _ => none
    | _ => none

/-- Outcome `o` judges the candidate at offset `off` of the stream (R51, R136). -/
def Judges (w : List Byte) (off : Nat) (o : FeedOutcome) : Prop :=
  ∃ c, (w.drop off).take c.length = c ∧ IsCandidate c ∧
    match o with
    | .decoded p =>
      ∃ v, validate config c = .ok v ∧ p.kind = kindOf v.type ∧ p.timestamp = v.timestamp
        ∧ decodePayload config v.type v.payload = .ok p.fields
    | .rejected reason raw =>
      raw = c ∧ (validate config c = .error reason ∨
        ∃ v, validate config c = .ok v ∧ decodePayload config v.type v.payload = .error reason)

/-- The bytes an outcome consumes: the whole frame of a decoded packet, at least one byte of a rejected candidate. -/
def span (w : List Byte) (off : Nat) : FeedOutcome → Nat
  | .decoded _ => 10 + (at' w (off + 1)).toNat
  | .rejected _ _ => 1

/-- What an outcome says once reason and raw bytes are left out. -/
def packetOf : FeedOutcome → Option Packet
  | .decoded p => some p
  | .rejected _ _ => none

/-- The bytes an instruction brings to the buffer. -/
def arriving : Instr → List Byte
  | .push b => [b]
  | .feed chunk => chunk
  | .handshake ts p crc tail => candidate 0x00 ts p crc tail
  | .status ts p crc tail => candidate 0x10 ts p crc tail
  | .alert ts p crc tail => candidate 0x20 ts p crc tail
  | .complete ts p crc tail => candidate 0x21 ts p crc tail
  | .forceControl ts p crc tail => candidate 0x30 ts p crc tail
  | .positionControl ts p crc tail => candidate 0x31 ts p crc tail
  | .hybridControl ts p crc tail => candidate 0x32 ts p crc tail
  | .parameterSet ts p crc tail => candidate 0x40 ts p crc tail
  | .emergencyStop ts p crc tail => candidate 0x50 ts p crc tail
  | .response ts p crc tail => candidate 0x80 ts p crc tail
  | .heartbeat ts p crc tail => candidate 0x90 ts p crc tail
  | .unknown code ts p crc tail => candidate code ts p crc tail
  | .crc16 _ => []
  | .reset => []
  | .validate _ => []
  | .decode _ _ => []
  | .encode _ _ _ => []
  | .reservedCmd7 => []

/-- CRC16, VALIDATE, DECODE, ENCODE: the operations that do not touch `buf` (30_encoding.md R82). -/
def isPure : Instr → Bool
  | .crc16 _ => true
  | .validate _ => true
  | .decode _ _ => true
  | .encode _ _ _ => true
  | .push _ => false
  | .feed _ => false
  | .reset => false
  | .reservedCmd7 => false
  | .handshake _ _ _ _ => false
  | .status _ _ _ _ => false
  | .alert _ _ _ _ => false
  | .complete _ _ _ _ => false
  | .forceControl _ _ _ _ => false
  | .positionControl _ _ _ _ => false
  | .hybridControl _ _ _ _ => false
  | .parameterSet _ _ _ _ => false
  | .emergencyStop _ _ _ _ => false
  | .response _ _ _ _ => false
  | .heartbeat _ _ _ _ => false
  | .unknown _ _ _ _ _ => false

/-- PUSH, FEED and the FRAME rows: the operations that receive bytes. -/
def isReceiving (i : Instr) : Bool := !isPure i && i != .reset && i != .reservedCmd7

/-- The state with a result: buffer and pending calls as before. -/
def answers (s : State) (v : Result) : State := { s with returned := v }

/-- The state with a buffer and an outcome list: pending calls as before. -/
def leaves (s : State) (buf : List Byte) (outs : List FeedOutcome) : State :=
  { s with buf := buf, returned := .outcomes outs }

end Sys2Proof.Reference

open Sys2Proof Sys2Proof.Machine Sys2Proof.Reference

/-! ### Checksum Engine -/

/-- 40_checksum.md R90, R92, R93: CRC16 answers the register of the algorithm, run on natural numbers, whatever the bytes. -/
def Obligations.Crc16ReturnsTheRegisterOfTheAlgorithm : Prop :=
  ∀ (data : List Byte) (s : State),
    Reference.crc 0xFFFF data < 2 ^ 16 ∧
      exec (.crc16 data) s = .next (answers s (.checksum (Reference.checksum data)))

/-- 40_checksum.md R95 (derived there): the corner value, the bijection and the exclusive-or law of the byte step. -/
def Obligations.CrcByteStepIsABijectionOnRegisters : Prop :=
  crc16 [] = 0xFFFF ∧ (∀ b : Byte, Function.Bijective fun r => crcByte r b) ∧
    ∀ (r : U16) (b : Byte), crcByte r b = crcByte (r ^^^ b.zeroExtend 16) 0

/-- 43_frame_validator.md R149, 93 G2 ("A model should prove or test the property"): two inputs that differ in one byte
have different checksums. -/
def Obligations.OneChangedByteChangesTheChecksum : Prop :=
  ∀ (before after : List Byte) (b c : Byte), b ≠ c → crc16 (before ++ b :: after) ≠ crc16 (before ++ c :: after)

/-- 40_checksum.md R90, a consequence of its algorithm for every input (95_test_vectors.md K3, last row, is one case of
it): data followed by its own checksum, low byte first, has checksum 0. -/
def Obligations.DataFollowedByItsChecksumHasChecksumZero : Prop :=
  ∀ (data : List Byte) (s : State),
    exec (.crc16 (data ++ bytes2 (Reference.crc 0xFFFF data))) s = .next (answers s (.checksum 0))

/-! ### Frame Validator -/

/-- 43_frame_validator.md R140 to R146: VALIDATE answers the first failing check, or the fields. The order rests on the
spec's decision D5 (log 6), the short ranges on D25 (log 22). -/
def Obligations.ValidateReportsTheFirstFailingCheck : Prop :=
  ∀ (r : List Byte) (s : State),
    ∃ v, exec (.validate r) s = .next (answers s (.validated v)) ∧
      (r.length < 10 ∨ r.length ≠ 10 + (at' r 1).toNat → v = .error .lengthMismatch) ∧
      (10 ≤ r.length → r.length = 10 + (at' r 1).toNat →
        (at' r 0 ≠ 0xAA → v = .error .badHeader) ∧
        (at' r 0 = 0xAA → at' r (9 + (at' r 1).toNat) ≠ 0x55 → v = .error .badTail) ∧
        (at' r 0 = 0xAA → at' r (9 + (at' r 1).toNat) = 0x55 →
          let given := (at' r (7 + (at' r 1).toNat)).toNat + 256 * (at' r (8 + (at' r 1).toNat)).toNat
          let computed := Reference.crc 0xFFFF ((r.drop 1).take (6 + (at' r 1).toNat))
          (given ≠ computed → v = .error .crcMismatch) ∧
            (given = computed →
              v = .ok { type := at' r 2, timestamp := word r 3, payload := (r.drop 7).take (at' r 1).toNat })))

/-- 30_encoding.md R80 (derived there from 43_frame_validator.md R141 to R145): VALIDATE accepts exactly the frames of R60
with the right checksum and tail, and gives back the fields they were built from. -/
def Obligations.ValidateAcceptsExactlyTheBuiltFrames : Prop :=
  ∀ (r : List Byte) (code : Byte) (ts : U32) (p : List Byte) (s : State),
    exec (.validate r) s
        = .next (answers s (.validated (.ok { type := code, timestamp := ts, payload := p }))) ↔
      p.length ≤ 255 ∧ r = Reference.frame code ts.toNat p

/-- 43_frame_validator.md R149: a well-formed frame with one byte changed is rejected, and the place says by which reason. -/
def Obligations.ValidateDetectsOneChangedByte : Prop :=
  ∀ (r : List Byte) (v : Validated) (i : Nat) (b : Byte) (s : State),
    validate config r = .ok v → i < r.length → b ≠ at' r i →
      exec (.validate (r.set i b)) s = .next (answers s (.validated (.error
        (if i = 0 then .badHeader else if i = 1 then .lengthMismatch
          else if i + 1 = r.length then .badTail else .crcMismatch))))

/-! ### Payload Codec -/

/-- 41_payload_codec.md R102: DECODE answers TruncatedPayload exactly when the payload is shorter than the code's minimum. -/
def Obligations.DecodeIsTruncatedExactlyBelowTheMinimum : Prop :=
  ∀ (code : Byte) (p : List Byte) (s : State),
    exec (.decode code p) s = .next (answers s (.variant (kindOf code) (.error .truncatedPayload))) ↔
      p.length < Reference.minLen code

/-- 41_payload_codec.md R103 to R105, R109: DECODE reads each field at the layout's offset, little-endian; a payload below
the layout's size is truncated; the reserved bytes of STATUS are read by nobody. That a payload above the layout's size is
decoded from its leading bytes (R108) is the spec's decision D8 (log 9). -/
def Obligations.DecodeReadsTheThreeLayouts : Prop :=
  ∀ (p : List Byte) (s : State),
    exec (.decode 0x10 p) s = .next (answers s (.variant .status
      (if p.length < 24 then .error .truncatedPayload
        else .ok (.status (word p 0) (word p 4) (word p 8) (word p 12) (at' p 16) (at' p 17) (at' p 18) (at' p 19) (at' p 20))))) ∧
    exec (.decode 0x30 p) s = .next (answers s (.variant .forceControl
      (if p.length < 17 then .error .truncatedPayload
        else .ok (.forceControl (at' p 0) (word p 1) (word p 5) (word p 9) (word p 13))))) ∧
    exec (.decode 0x90 p) s = .next (answers s (.variant .heartbeat
      (if p.length < 5 then .error .truncatedPayload else .ok (.heartbeat (word p 0) (at' p 4)))))

/-- 41_payload_codec.md R107: DECODE of a code that is none of the eleven named ones answers the bytes, under `Unknown(code)`. -/
def Obligations.DecodeOfUnknownCodesIsRaw : Prop :=
  ∀ (code : Byte) (p : List Byte) (s : State),
    code ∉ ([0x00, 0x10, 0x20, 0x21, 0x30, 0x31, 0x32, 0x40, 0x50, 0x80, 0x90] : List Byte) →
      exec (.decode code p) s = .next (answers s (.variant (.unknown code) (.ok (.raw p))))

/-- 41_payload_codec.md R106, the spec's decision D9 (log 16): DECODE of the eight named kinds without a layout answers the bytes,
under the named kind. -/
def Obligations.DecodeOfNamedKindsWithoutALayoutIsRaw : Prop :=
  ∀ (code : Byte) (k : PacketKind) (p : List Byte) (s : State),
    (code, k) ∈ ([(0x00, .handshake), (0x20, .alert), (0x21, .complete), (0x31, .positionControl), (0x32, .hybridControl),
        (0x40, .parameterSet), (0x50, .emergencyStop), (0x80, .response)] : List (Byte × PacketKind)) →
      exec (.decode code p) s = .next (answers s (.variant k (.ok (.raw p))))

/-- 41_payload_codec.md R118, second direction: re-encoding a decoded payload gives it back exactly when its size is the
layout's and its reserved bytes are zero; for raw codes always. That a longer payload decodes at all is the spec's
decision D8 (log 9). -/
def Obligations.ReencodingGivesBackExactPayloads : Prop :=
  ∀ (code : Byte) (p : List Byte) (v : PayloadVariant), p.length ≤ 255 → decodePayload config code p = .ok v →
    (encodePayload code (fieldsOf v) = .ok p ↔ ExactPayload code p)

/-! ### ENCODE -/

/-- 41_payload_codec.md R111 with 44_facade.md R152 to R154: the 34-byte STATUS frame. The time is an operand by D12 (log
11), the presence bits are D13 (log 12). -/
def Obligations.EncodeBuildsTheStatusFrame : Prop :=
  ∀ (f : Fields) (fv fr po ve : F32) (me pr sd es ec : Byte) (ms : Nat) (s : State),
    f.forceValue = some fv → f.forceRate = some fr → f.position = some po → f.velocity = some ve →
    f.motorEnabled = some me → f.positionReached = some pr → f.stallDetected = some sd →
    f.emergencyStop = some es → f.errorCode = some ec →
      exec (.encode 0x10 f ms) s = .next (answers s (.frame (.ok (Reference.frame 0x10 ms
        (bytes4 fv.toNat ++ bytes4 fr.toNat ++ bytes4 po.toNat ++ bytes4 ve.toNat
          ++ [me, pr, sd, es, ec, 0, 0, 0])))))

/-- 41_payload_codec.md R112: the 27-byte FORCE_CONTROL frame, with the defaults 5.0 and 0.0 where a field is absent. The
pattern of 5.0 is binary32 (93 G1, log 14); the presence bits are D13 (log 12), the time as an operand D12 (log 11). -/
def Obligations.EncodeBuildsTheForceControlFrame : Prop :=
  ∀ (f : Fields) (m : Byte) (tf fr : F32) (ms : Nat) (s : State),
    f.mode = some m → f.targetForce = some tf → f.forceRate = some fr →
      exec (.encode 0x30 f ms) s = .next (answers s (.frame (.ok (Reference.frame 0x30 ms
        ([m] ++ bytes4 tf.toNat ++ bytes4 fr.toNat
          ++ f.maxForce.elim [0x00, 0x00, 0xA0, 0x40] (fun x => bytes4 x.toNat)
          ++ f.holdTime.elim [0x00, 0x00, 0x00, 0x00] (fun x => bytes4 x.toNat))))))

/-- 41_payload_codec.md R113: the 15-byte HEARTBEAT frame. The time is an operand by D12 (log 11), the presence bits are
D13 (log 12). -/
def Obligations.EncodeBuildsTheHeartbeatFrame : Prop :=
  ∀ (f : Fields) (t : U32) (st : Byte) (ms : Nat) (s : State), f.timestamp = some t → f.status = some st →
    exec (.encode 0x90 f ms) s
      = .next (answers s (.frame (.ok (Reference.frame 0x90 ms (bytes4 t.toNat ++ [st])))))

/-- 41_payload_codec.md R114, 44 R158: a raw or unknown code frames the bytes unchanged up to 255 of them; more are
PayloadTooLong (the spec's decision D14, log 13). The time is an operand by D12 (log 11). -/
def Obligations.EncodeFramesRawBytesUnchanged : Prop :=
  ∀ (code : Byte) (f : Fields) (ms : Nat) (s : State), code ≠ 0x10 → code ≠ 0x30 → code ≠ 0x90 →
    exec (.encode code f ms) s = .next (answers s (.frame
      (if f.raw.length ≤ 255 then .ok (Reference.frame code ms f.raw) else .error .payloadTooLong)))

/-- 41_payload_codec.md R115, 44 R155: ENCODE of a kind with a layout fails exactly when a required field is absent, with
MissingRequiredField and no bytes; which fields are required is D13 (log 12). -/
def Obligations.EncodeFailsExactlyOnAMissingRequiredField : Prop :=
  ∀ (code : Byte) (f : Fields) (ms : Nat) (s : State), code = 0x10 ∨ code = 0x30 ∨ code = 0x90 →
    (exec (.encode code f ms) s = .next (answers s (.frame (.error .missingRequiredField))) ↔
        ¬ FieldsPresent code f) ∧
      (FieldsPresent code f → ∃ p, p.length = minLen code ∧
        exec (.encode code f ms) s = .next (answers s (.frame (.ok (Reference.frame code ms p)))))

/-- 44_facade.md R157, 41 R118 (derived there): what ENCODE builds, FEED decodes to the same kind, time and field values,
and nothing stays in the buffer. Which fields may be absent is D13 (log 12), the pattern 0x40A00000 of an absent max_force
is PRESUMED binary32 (93 G1, log 14), the time as an operand is D12 (log 11). -/
def Obligations.FeedDecodesWhatEncodeBuilds : Prop :=
  ∀ (code : Byte) (f : Fields) (ms : Nat) (s t : State) (fr : List Byte),
    exec (.encode code f ms) s = .next t → t.returned = .frame (.ok fr) → t.buf = [] →
      exec (.feed fr) t = .next (answers t (.outcomes
        [.decoded { kind := kindOf code, timestamp := BitVec.ofNat 32 ms, fields := sent code f }]))

/-! ### FEED and PUSH -/

/-- 42_frame_assembler.md R120 to R129: FEED is the spec's offset loop, run on the appended buffer; the loop ends within
|buf| + 1 passes (R136). Passing over bytes silently is D4 (log 21), raw_bytes D6 (log 7), the codec's advance D7 (log 8).
-/
def Obligations.FeedIsTheOffsetLoopOfTheSpec : Prop :=
  ∀ (chunk : List Byte) (s : State),
    let w := s.buf ++ chunk
    let r := Reference.loop w (w.length + 1) 0 []
    exec (.feed chunk) s = .next (leaves s (w.drop r.2) r.1)

/-- 42_frame_assembler.md R122, R134, the spec's decision D4 (log 21): bytes in front of the first header leave no trace, neither
an outcome nor a byte in the buffer. -/
def Obligations.BytesBeforeAHeaderLeaveNoTrace : Prop :=
  ∀ (chunk noise w : List Byte) (s : State), s.buf ++ chunk = noise ++ w → NoHeader noise →
    exec (.feed chunk) s = exec (.feed w) { s with buf := [] } ∧
      (w = [] → exec (.feed chunk) s = .next (leaves s [] []))

/-- 42_frame_assembler.md R124: while the candidate at the front is not full, FEED emits nothing and keeps everything; a
well-formed frame with a payload of at least its kind's minimum, without its last byte, is such a candidate, and its last
byte completes exactly one Decoded outcome. That a payload longer than its layout is decoded is D8 (log 9); raw payloads
of the named kinds without a layout are D9 (log 16). -/
def Obligations.FeedWaitsForTheFullCandidate : Prop :=
  (∀ (chunk : List Byte) (s : State), IsPartial (s.buf ++ chunk) →
    exec (.feed chunk) s = .next (leaves s (s.buf ++ chunk) [])) ∧
  ∀ (code : Byte) (ms : Nat) (p : List Byte) (s : State), p.length ≤ 255 → Reference.minLen code ≤ p.length →
    s.buf = (Reference.frame code ms p).dropLast →
      IsPartial s.buf ∧
        exec (.feed [0x55]) s = .next (leaves s [] [.decoded
          { kind := kindOf code, timestamp := BitVec.ofNat 32 ms, fields := Reference.variant code p }])

/-- 42_frame_assembler.md R126: an accepted candidate is one Decoded packet, its whole frame is consumed, and the scan goes on
behind its tail. -/
def Obligations.FeedEmitsAnAcceptedFrameAndGoesOnBehindIt : Prop :=
  ∀ (chunk c rest : List Byte) (s : State) (v : Validated) (f : PayloadVariant),
    s.buf ++ chunk = c ++ rest → IsCandidate c →
    validate config c = .ok v → decodePayload config v.type v.payload = .ok f →
      ∃ outs buf, exec (.feed rest) { s with buf := [] } = .next (leaves s buf outs) ∧
        exec (.feed chunk) s
          = .next (leaves s buf (.decoded { kind := kindOf v.type, timestamp := v.timestamp, fields := f } :: outs))

/-- 42_frame_assembler.md R127, 60 R183: a candidate the Validator refuses is one Rejected outcome, one byte is discarded, and
every byte after it is scanned again. That raw_bytes is the whole candidate is D6 (log 7). -/
def Obligations.FeedRejectsAndRescansFromTheNextByte : Prop :=
  ∀ (chunk c rest : List Byte) (s : State) (reason : RejectReason),
    s.buf ++ chunk = c ++ rest → IsCandidate c → validate config c = .error reason →
      ∃ outs buf, exec (.feed (c.drop 1 ++ rest)) { s with buf := [] } = .next (leaves s buf outs) ∧
        exec (.feed chunk) s = .next (leaves s buf (.rejected reason c :: outs))

/-- 42_frame_assembler.md R128: a well-formed frame with a short payload is rejected as TruncatedPayload and consumed whole
(the spec's decision D7, log 8). -/
def Obligations.FeedConsumesATruncatedPayloadWhole : Prop :=
  ∀ (chunk rest : List Byte) (code : Byte) (ms : Nat) (p : List Byte) (s : State),
    s.buf ++ chunk = Reference.frame code ms p ++ rest → p.length < Reference.minLen code →
      ∃ outs buf, exec (.feed rest) { s with buf := [] } = .next (leaves s buf outs) ∧
        exec (.feed chunk) s = .next (leaves s buf (.rejected .truncatedPayload (Reference.frame code ms p) :: outs))

/-- 42_frame_assembler.md R131, 20 R52 (derived there): where the chunk boundary falls changes neither the outcomes nor the
buffer, from every state. -/
def Obligations.ChunkBoundariesDoNotMatter : Prop :=
  ∀ (c₁ c₂ : List Byte) (s : State),
    ∃ o₁ o₂ b₁ b₂,
      exec (.feed c₁) s = .next (leaves s b₁ o₁) ∧
      exec (.feed c₂) (leaves s b₁ o₁)
        = .next (leaves s b₂ o₂) ∧
      exec (.feed (c₁ ++ c₂)) s = .next (leaves s b₂ (o₁ ++ o₂))

/-- 42_frame_assembler.md R131 for every implementation: the same for every setting of the choices D5 to D8. -/
def Obligations.ChunkBoundariesDoNotMatterForAnyConfig : Prop :=
  ∀ (cfg : Config) (buf c₁ c₂ : List Byte),
    feed cfg buf (c₁ ++ c₂)
      = ((feed cfg buf c₁).1 ++ (feed cfg (feed cfg buf c₁).2 c₂).1, (feed cfg (feed cfg buf c₁).2 c₂).2)

/-- 30_encoding.md R83, 42 R131: from an at-rest state, FEED of a chunk is one PUSH per byte. -/
def Obligations.FeedIsOnePushPerByte : Prop :=
  ∀ (chunk : List Byte) (s : State), Safe s →
    ∃ outs buf, pushAll chunk s = some (outs, buf) ∧
      exec (.feed chunk) s = .next (leaves s buf outs)

/-- 42_frame_assembler.md R130 (derived there), spelled out from an at-rest buffer: a passed-over byte (silently: D4, log
21), a kept byte, or a completed candidate at offset 0, judged first; if it is accepted or truncated it is the only
outcome and `buf` is empty. That a truncated frame is consumed whole is D7 (log 8); that raw_bytes is the whole candidate
is D6 (log 7). -/
def Obligations.PushKeepsAByteOrJudgesTheFrontCandidate : Prop :=
  ∀ (b : Byte) (s : State), Safe s →
    let w := s.buf ++ [b]
    (s.buf = [] → b ≠ 0xAA → exec (.push b) s = .next (answers s (.outcomes []))) ∧
    (IsPartial w → exec (.push b) s = .next (leaves s w [])) ∧
    (IsCandidate w →
      (∀ v f, validate config w = .ok v → decodePayload config v.type v.payload = .ok f →
        exec (.push b) s
          = .next (leaves s [] [.decoded { kind := kindOf v.type, timestamp := v.timestamp, fields := f }])) ∧
      (∀ v e, validate config w = .ok v → decodePayload config v.type v.payload = .error e →
        exec (.push b) s = .next (leaves s [] [.rejected e w])) ∧
      (∀ e, validate config w = .error e →
        ∃ outs buf, exec (.push b) s = .next (leaves s buf (.rejected e w :: outs)))) ∧
    ((s.buf = [] ∧ b ≠ 0xAA) ∨ IsPartial w ∨ IsCandidate w)

/-- 42_frame_assembler.md R132 (the reading of the phases is the spec's decision D23, log 20): the phase after each byte. -/
def Obligations.PhaseAdvancesByteByByte : Prop :=
  ∀ (b : Byte) (s : State), Safe s →
    let n := s.buf.length
    let len := (at' s.buf 1).toNat
    ∃ t outs, exec (.push b) s = .next t ∧ t.returned = .outcomes outs ∧
      (n < 2 ∨ n < 9 + len → outs = []) ∧
      (n = 0 → phase s.buf = .seekHeader ∧ phase t.buf = if b = 0xAA then .readLength else .seekHeader) ∧
      (n = 1 → phase s.buf = .readLength ∧ phase t.buf = .readType ∧ (at' t.buf 1 = b)) ∧
      (n = 2 → phase s.buf = .readType ∧ phase t.buf = .readTimestamp) ∧
      (3 ≤ n → n ≤ 5 → phase s.buf = .readTimestamp ∧ phase t.buf = .readTimestamp) ∧
      (n = 6 → phase s.buf = .readTimestamp ∧ phase t.buf = if 0 < len then .readPayload else .readCrc) ∧
      (7 ≤ n → n < 6 + len → phase s.buf = .readPayload ∧ phase t.buf = .readPayload) ∧
      (7 ≤ n → n = 6 + len → phase s.buf = .readPayload ∧ phase t.buf = .readCrc) ∧
      (7 ≤ n → n = 7 + len → phase s.buf = .readCrc ∧ phase t.buf = .readCrc) ∧
      (8 ≤ n → n = 8 + len → phase s.buf = .readCrc ∧ phase t.buf = .readTail) ∧
      (9 ≤ n → n = 9 + len → phase s.buf = .readTail ∧ outs ≠ [] ∧ phase t.buf ≠ .resolve)

/-- 20_memory.md R51, 42 R136: the outcomes of a FEED judge candidates at strictly increasing offsets of the stream, in that
order, and nothing is judged inside a decoded frame. -/
def Obligations.OutcomesJudgeCandidatesInStreamOrder : Prop :=
  ∀ (chunk : List Byte) (s : State),
    let w := s.buf ++ chunk
    ∃ outs buf offs, exec (.feed chunk) s = .next (leaves s buf outs) ∧
      List.Forall₂ (Judges w) offs outs ∧
      (offs.zip outs).Pairwise fun a b => a.1 + span w a.1 a.2 ≤ b.1

/-- 43_frame_validator.md R148 (derived there): through FEED a candidate is rejected only as BadTail, CrcMismatch or
TruncatedPayload. -/
def Obligations.FeedRejectsOnlyForTailChecksumOrTruncation : Prop :=
  ∀ (chunk : List Byte) (s t : State) (outs : List FeedOutcome) (reason : RejectReason) (raw : List Byte),
    exec (.feed chunk) s = .next t → t.returned = .outcomes outs → .rejected reason raw ∈ outs →
      reason = .badTail ∨ reason = .crcMismatch ∨ reason = .truncatedPayload

/-- 70_reset_and_hazards.md R216 (derived there): at most one outcome per header byte of the stream, and at most 265 from one
PUSH at rest. -/
def Obligations.OutcomesAreAtMostTheHeaderBytes : Prop :=
  (∀ (chunk : List Byte) (s t : State) (outs : List FeedOutcome),
    exec (.feed chunk) s = .next t → t.returned = .outcomes outs → outs.length ≤ (s.buf ++ chunk).count 0xAA) ∧
  ∀ (b : Byte) (s t : State) (outs : List FeedOutcome), Safe s →
    exec (.push b) s = .next t → t.returned = .outcomes outs → outs.length ≤ 265

/-- 42_frame_assembler.md R135, R137, 44 R157: well-formed frames with a payload of at least their kind's minimum, with
bytes other than the header between them, are all decoded, in order, whatever their number, and nothing stays in the
buffer. That the bytes between them vanish silently is D4 (log 21); that a payload longer than its layout is decoded is D8
(log 9); raw payloads of the named kinds without a layout are D9 (log 16). -/
def Obligations.AStreamOfGoodFramesDecodesInOrder : Prop :=
  ∀ (items : List (List Byte × Byte × Nat × List Byte)) (s : State),
    (∀ x ∈ items, NoHeader x.1 ∧ x.2.2.2.length ≤ 255 ∧ minLen x.2.1 ≤ x.2.2.2.length) → s.buf = [] →
      exec (.feed (items.flatMap fun x => x.1 ++ Reference.frame x.2.1 x.2.2.1 x.2.2.2)) s
        = .next (answers s (.outcomes (items.map fun x => .decoded
            { kind := kindOf x.2.1, timestamp := BitVec.ofNat 32 x.2.2.1, fields := Reference.variant x.2.1 x.2.2.2 })))

/-- 42_frame_assembler.md R139, 95 S4: two frames back to back, one byte of the first one's checksummed range after the
length byte corrupted; when no byte of the first after its header is the header value, the outcomes are one CrcMismatch
and the second packet. raw_bytes is D6 (log 7), the silent passing over D4 (log 21); that a second payload longer than its
layout is decoded is D8 (log 9), raw payloads of the named kinds D9 (log 16). -/
def Obligations.ResyncAfterOneCorruptedByte : Prop :=
  ∀ (c₁ c₂ : Byte) (m₁ m₂ : Nat) (p₁ p₂ : List Byte) (i : Nat) (b : Byte) (s : State),
    p₁.length ≤ 255 → p₂.length ≤ 255 → minLen c₂ ≤ p₂.length → 2 ≤ i → i < 7 + p₁.length →
    b ≠ at' (Reference.frame c₁ m₁ p₁) i → NoHeader (((Reference.frame c₁ m₁ p₁).set i b).drop 1) → s.buf = [] →
      exec (.feed ((Reference.frame c₁ m₁ p₁).set i b ++ Reference.frame c₂ m₂ p₂)) s
        = .next (answers s (.outcomes
            [.rejected .crcMismatch ((Reference.frame c₁ m₁ p₁).set i b),
              .decoded { kind := kindOf c₂, timestamp := BitVec.ofNat 32 m₂, fields := Reference.variant c₂ p₂ }]))

/-- 92_eei_decisions.md D5, D6: the order of the Validator's checks and the content of raw_bytes change neither the decoded
packets, nor where rejections stand among them, nor the buffer. -/
def Obligations.PacketsDoNotDependOnRejectOrderOrRawBytes : Prop :=
  ∀ (cfg : Config) (order : RejectOrder) (raw : RawBytesOf) (buf chunk : List Byte),
    let other := { cfg with rejectOrder := order, rawBytesOf := raw }
    (feed other buf chunk).2 = (feed cfg buf chunk).2 ∧
      (feed other buf chunk).1.map packetOf = (feed cfg buf chunk).1.map packetOf

/-! ### FRAME rows -/

/-- 41_payload_codec.md R106, R107: a frame of a kind without a layout, arriving whole with its checksum and tail, is decoded to
its bytes under its kind. The eight named kinds as Raw are the spec's decision D9 (log 16); the row as an operation is log 3. -/
def Obligations.RawFrameRowsDecodeToTheirBytes : Prop :=
  ∀ (ts : U32) (p : List Byte) (s : State), s.buf = [] → p.length ≤ 255 →
    let ok (code : Byte) := Reference.checksum (Reference.body code ts.toNat p)
    let answer (k : PacketKind) : State :=
      (answers s (.outcomes [.decoded { kind := k, timestamp := ts, fields := .raw p }]))
    exec (.handshake ts p (ok 0x00) 0x55) s = .next (answer .handshake) ∧
    exec (.alert ts p (ok 0x20) 0x55) s = .next (answer .alert) ∧
    exec (.complete ts p (ok 0x21) 0x55) s = .next (answer .complete) ∧
    exec (.positionControl ts p (ok 0x31) 0x55) s = .next (answer .positionControl) ∧
    exec (.hybridControl ts p (ok 0x32) 0x55) s = .next (answer .hybridControl) ∧
    exec (.parameterSet ts p (ok 0x40) 0x55) s = .next (answer .parameterSet) ∧
    exec (.emergencyStop ts p (ok 0x50) 0x55) s = .next (answer .emergencyStop) ∧
    exec (.response ts p (ok 0x80) 0x55) s = .next (answer .response) ∧
    ∀ c : Byte, c ∉ ([0x00, 0x10, 0x20, 0x21, 0x30, 0x31, 0x32, 0x40, 0x50, 0x80, 0x90] : List Byte) →
      exec (.unknown c ts p (ok c) 0x55) s = .next (answer (.unknown c))

/-- 41_payload_codec.md R103: a STATUS frame, arriving whole, is decoded field by field. The row as an operation is log 3;
that a payload longer than the layout is decoded is D8 (log 9). -/
def Obligations.StatusFrameRowDecodesItsFields : Prop :=
  ∀ (ts : U32) (p : List Byte) (s : State), s.buf = [] → 24 ≤ p.length → p.length ≤ 255 →
    exec (.status ts p (Reference.checksum (Reference.body 0x10 ts.toNat p)) 0x55) s
      = .next (answers s (.outcomes [.decoded ⟨.status, ts,
          .status (word p 0) (word p 4) (word p 8) (word p 12)
            (at' p 16) (at' p 17) (at' p 18) (at' p 19) (at' p 20)⟩]))

/-- 41_payload_codec.md R104: a FORCE_CONTROL frame, arriving whole, is decoded field by field. The row as an operation is
log 3; that a payload longer than the layout is decoded is D8 (log 9). -/
def Obligations.ForceControlFrameRowDecodesItsFields : Prop :=
  ∀ (ts : U32) (p : List Byte) (s : State), s.buf = [] → 17 ≤ p.length → p.length ≤ 255 →
    exec (.forceControl ts p (Reference.checksum (Reference.body 0x30 ts.toNat p)) 0x55) s
      = .next (answers s (.outcomes [.decoded ⟨.forceControl, ts,
          .forceControl (at' p 0) (word p 1) (word p 5) (word p 9) (word p 13)⟩]))

/-- 41_payload_codec.md R105: a HEARTBEAT frame, arriving whole, is decoded field by field. The row as an operation is log
3; that a payload longer than the layout is decoded is D8 (log 9). -/
def Obligations.HeartbeatFrameRowDecodesItsFields : Prop :=
  ∀ (ts : U32) (p : List Byte) (s : State), s.buf = [] → 5 ≤ p.length → p.length ≤ 255 →
    exec (.heartbeat ts p (Reference.checksum (Reference.body 0x90 ts.toNat p)) 0x55) s
      = .next (answers s (.outcomes [.decoded ⟨.heartbeat, ts,
          .heartbeat (word p 0) (at' p 4)⟩]))

/-- 60_exceptions.md R173, R175: a frame of any kind with a wrong tail, or with a right tail and a wrong checksum, is rejected
first of all with that reason; tail before checksum is D5 (log 6), raw_bytes D6 (log 7). -/
def Obligations.FrameRowsRejectAWrongTailOrChecksum : Prop :=
  ∀ (code : Byte) (ts : U32) (p : List Byte) (crcField : U16) (tail : Byte) (s : State), s.buf = [] → p.length ≤ 255 →
    tail ≠ 0x55 ∨ crcField ≠ Reference.checksum (Reference.body code ts.toNat p) →
      ∃ outs buf, exec (frameInstr (kindOf code) ts p crcField tail) s
        = .next (leaves s buf
            (.rejected (if tail = 0x55 then .crcMismatch else .badTail) (candidate code ts p crcField tail) :: outs))

/-- 30_encoding.md R60 and log 3: from every state, with bytes buffered or not, a FRAME row of any kind is the FEED of the frame's
bytes, whatever its checksum field and tail. -/
def Obligations.FrameRowsAreTheFeedOfTheirBytes : Prop :=
  ∀ (code : Byte) (ts : U32) (p : List Byte) (crcField : U16) (tail : Byte) (s : State),
    exec (frameInstr (kindOf code) ts p crcField tail) s = exec (.feed (candidate code ts p crcField tail)) s

/-- 42_frame_assembler.md R120 and log 4: a chunk on the wire has the effect of its FEED, whether or not it is a frame. -/
def Obligations.AChunkOnTheWireIsItsFeed : Prop :=
  ∀ (chunk : List Byte) (s : State), exec (decode (.wire chunk)) s = exec (.feed chunk) s

/-! ### State, frame and invariants -/

/-- 44_facade.md R160, 20 R53: RESET empties the buffer, returns nothing, and no byte fed before it influences any later
operation: the answer is that of a fresh instance with the same pending calls. -/
def Obligations.ResetErasesWhatWasFed : Prop :=
  ∀ (s : State), exec .reset s = .next { State.reset with port := s.port } ∧
    ∀ (t : State) (i : Instr), exec .reset s = .next t → exec i t = exec i { State.reset with port := s.port }

/-- 70_reset_and_hazards.md R200: the whole of the spec's state after reset, and its views. -/
def Obligations.ResetStateIsEmpty : Prop :=
  State.reset.buf = [] ∧ cursor State.reset.buf = 0 ∧ phase State.reset.buf = .seekHeader ∧ pending State.reset.buf = false

/-- 10_state.md R23 at reset, and the model's own two fields there (log 1, 2). -/
def Obligations.ResetStateIsSafe : Prop :=
  Safe State.reset ∧ State.reset.port = [] ∧ State.reset.returned = .nothing

/-- 40_checksum.md R94, 44 R156 (10_state.md R32 for VALIDATE and DECODE): CRC16, VALIDATE, DECODE and ENCODE change no byte of the buffer and answer the same result
whatever the buffer holds. -/
def Obligations.PureOperationsNeitherReadNorWriteTheBuffer : Prop :=
  ∀ (i : Instr) (s : State), isPure i = true →
    ∃ v, exec i s = .next (answers s v) ∧
      ∀ s' : State, exec i s' = .next (answers s' v)

/-- 20_memory.md R40, R47, 42 R121, R129: a receiving operation leaves in the buffer the last bytes of what was held followed by
what arrived, each as it was and in order; the pending calls stay; the result is an outcome list. -/
def Obligations.ReceivingOnlyAppendsAndDropsFromTheFront : Prop :=
  ∀ (i : Instr) (s : State), isReceiving i = true →
    ∃ t outs, exec i s = .next t ∧ t.port = s.port ∧ t.returned = .outcomes outs ∧
      t.buf.length ≤ (s.buf ++ arriving i).length ∧
      ∀ a, readByte t.buf a = readByte (s.buf ++ arriving i) (a + ((s.buf ++ arriving i).length - t.buf.length))

/-- 10_state.md R23 (derived there): every step from a state whose buffer has the at-rest form leaves one. -/
def Obligations.EveryStepKeepsTheAtRestForm : Prop :=
  ∀ (s t : State), Safe s → step s = .next t → Safe t

/-- 10_state.md R23, 42 R138: under any owner the buffer is at rest between operations and holds at most 264 bytes. -/
def Obligations.ReachableBuffersHoldAtMost264Bytes : Prop :=
  ∀ (s : State), Reachable s → Safe s ∧ s.buf.length ≤ 264

/-- 10_state.md R23 for every implementation: FEED leaves an at-rest buffer from any buffer, for every setting of D5 to D8, and
FEED of the empty chunk changes nothing at rest (42 R133; D20, log 29). -/
def Obligations.FeedLeavesAnAtRestBufferForAnyConfig : Prop :=
  ∀ (cfg : Config) (buf chunk : List Byte),
    atRest (feed cfg buf chunk).2 = true ∧ (atRest buf = true → feed cfg buf [] = ([], buf))

/-- 60_exceptions.md R184, 43 R147: every operation but the reserved code completes, in every state. -/
def Obligations.EveryOperationCompletesInEveryState : Prop :=
  ∀ (i : Instr) (s : State), i ≠ .reservedCmd7 → ∃ t, exec i s = .next t ∧ t.port = s.port

/-- 30_encoding.md R82, 93 U8: select code 7 is refused, in every state and however it arrives. -/
def Obligations.TheReservedSelectCodeIsRefused : Prop :=
  ∀ (q : Request) (s : State), q.cmd = 7 →
    exec .reservedCmd7 s = .refused .reservedCommand ∧
      step { s with port := .command q :: s.port } = .refused .reservedCommand

/-- 10_state.md R33, 60 R190: a step of one instance is its own step and leaves every other instance as it was. -/
def Obligations.InstancesShareNothing : Prop :=
  ∀ (l m : List State) (k : Fin l.length), stepInstance l k = .next m →
    ∃ t, step l[k] = .next t ∧ m.length = l.length ∧ m[k.val]? = some t ∧
      ∀ j : Nat, j ≠ k.val → m[j]? = l[j]?

/-! ### Encoding and the step -/

/-- 30_encoding.md R60, R71, R82: decoding the encoding of a well-formed instruction gives it back, every operand at every
value. -/
def Obligations.DecodeOfEncodeIsTheInstruction : Prop :=
  ∀ i : Instr, WellFormed i = true → decode (encode i) = i

/-- 30_encoding.md R60, R70: a byte string that decodes as a FRAME row is the encoding of it, bit for bit, and is a full
candidate; every full candidate decodes. -/
def Obligations.EncodeOfADecodedFrameIsItsBytes : Prop :=
  (∀ (r : List Byte) (i : Instr), decodeFrame r = .ok i → encode i = .wire r ∧ IsCandidate r) ∧
    ∀ r : List Byte, IsCandidate r → ∃ i, decodeFrame r = .ok i

/-- Whatever the owner puts at the port decodes to a well-formed instruction. -/
def Obligations.EveryInputDecodesToAWellFormedInstruction : Prop :=
  ∀ x : Input, WellFormed (decode x) = true

/-- 30_encoding.md R71 and section 8: a table word of three bytes decodes to the row its type byte selects, whatever its length
byte, with zeros for the bytes above. -/
def Obligations.TableWordsSelectTheRowOfTheirTypeByte : Prop :=
  ∀ (len code : Byte),
    decodeTableWord 24 (0xAA + 256 * len.toNat + 65536 * code.toNat)
      = some (frameInstr (kindOf code) 0 (List.replicate len.toNat 0) 0 0)

/-- 30_encoding.md R60, R82, words written out: two select codes and the frames E1 and F1 of 95_test_vectors.md. -/
def Obligations.SampleWordsDecodeToTheirInstructions : Prop :=
  decodeTableWord 8 0b000 = some (.crc16 []) ∧ decodeTableWord 8 0b011 = some .reset ∧
    decodeFrame [0xAA, 0x00, 0x00, 0xE8, 0x03, 0x00, 0x00, 0xC5, 0xBB, 0x55] = .ok (.handshake 1000 [] 0xBBC5 0x55) ∧
    decodeFrame [0xAA, 0x05, 0x90, 0x10, 0x00, 0x00, 0x00, 0x10, 0x00, 0x00, 0x00, 0x01, 0xDC, 0x96, 0x55]
      = .ok (.heartbeat 0x10 [0x10, 0x00, 0x00, 0x00, 0x01] 0x96DC 0x55)

/-- 20_memory.md R48, R50: a step takes the oldest call off the port and runs the instruction it is, and nothing else; with no
call pending nothing happens (log 5). -/
def Obligations.AStepRunsTheOldestCall : Prop :=
  ∀ (s : State) (i : Instr) (x : Input) (rest : List Input),
    (WellFormed i = true → s.port = encode i :: rest → step s = exec i { s with port := rest }) ∧
      (s.port = x :: rest → step s = exec (decode x) { s with port := rest }) ∧
      (s.port = [] → step s = .next s)
end

