-- ==== Sys2Proof/Laws/State.lean ====
section
/-! SUPPORT. One lemma per field per update of State. -/

namespace Sys2Proof.Machine

@[simp] theorem State.ret_buf (s : State) (v : Result) : (s.ret v).buf = s.buf := rfl
@[simp] theorem State.ret_port (s : State) (v : Result) : (s.ret v).port = s.port := rfl
@[simp] theorem State.ret_returned (s : State) (v : Result) : (s.ret v).returned = v := rfl

@[simp] theorem State.setBuf_buf (s : State) (b : List Byte) : (s.setBuf b).buf = b := rfl
@[simp] theorem State.setBuf_port (s : State) (b : List Byte) : (s.setBuf b).port = s.port := rfl
@[simp] theorem State.setBuf_returned (s : State) (b : List Byte) : (s.setBuf b).returned = s.returned := rfl

@[simp] theorem State.post_buf (s : State) (x : Input) : (s.post x).buf = s.buf := rfl
@[simp] theorem State.post_port (s : State) (x : Input) : (s.post x).port = s.port ++ [x] := rfl
@[simp] theorem State.post_returned (s : State) (x : Input) : (s.post x).returned = s.returned := rfl

@[simp] theorem State.feed_buf (s : State) (chunk : List Byte) :
    (s.feed chunk).buf = (Sys2Proof.Machine.feed config s.buf chunk).2 := rfl
@[simp] theorem State.feed_port (s : State) (chunk : List Byte) : (s.feed chunk).port = s.port := rfl
@[simp] theorem State.feed_returned (s : State) (chunk : List Byte) :
    (s.feed chunk).returned = .outcomes (Sys2Proof.Machine.feed config s.buf chunk).1 := rfl

@[simp] theorem State.reset_buf : State.reset.buf = [] := rfl
@[simp] theorem State.reset_port : State.reset.port = [] := rfl
@[simp] theorem State.reset_returned : State.reset.returned = .nothing := rfl

end Sys2Proof.Machine
end

