-- ==== Sys2Proof/Laws/Bytes.lean ====
section
/-! SUPPORT. Byte assembly: splitting a value into bytes and assembling it again, at any offset of a byte string. -/

namespace Sys2Proof.Machine

@[simp] theorem byteAt_cons_zero (b : Byte) (s : List Byte) : byteAt (b :: s) 0 = b := rfl

@[simp] theorem byteAt_cons_succ (b : Byte) (s : List Byte) (i : Nat) : byteAt (b :: s) (i + 1) = byteAt s i := by
  simp [byteAt]

/-- A byte behind the first part is a byte of the second. -/
theorem byteAt_append_right {a : List Byte} (b : List Byte) {i : Nat} (h : a.length ≤ i) :
    byteAt (a ++ b) i = byteAt b (i - a.length) := by
  simp [byteAt, List.getElem?_append_right h]

/-- A byte of the first part. -/
theorem byteAt_append_left {a : List Byte} (b : List Byte) {i : Nat} (h : i < a.length) :
    byteAt (a ++ b) i = byteAt a i := by
  simp [byteAt, List.getElem?_append_left h]

theorem byteAt_drop (s : List Byte) (k i : Nat) : byteAt (s.drop k) i = byteAt s (k + i) := by
  simp [byteAt]

/-- Cutting off `k` bytes moves every assembly by `k`. -/
theorem le32_drop (s : List Byte) (k i : Nat) : le32 (s.drop k) i = le32 s (k + i) := by
  simp [le32, byteAt_drop, Nat.add_assoc]

theorem le16_drop (s : List Byte) (k i : Nat) : le16 (s.drop k) i = le16 s (k + i) := by
  simp [le16, byteAt_drop, Nat.add_assoc]

@[simp] theorem bytesLe32_length (v : U32) : (bytesLe32 v).length = 4 := rfl
@[simp] theorem bytesLe16_length (v : U16) : (bytesLe16 v).length = 2 := rfl

/-- `le32` puts its four bytes side by side. -/
theorem le32_eq_append (s : List Byte) (i : Nat) :
    le32 s i = byteAt s (i + 3) ++ byteAt s (i + 2) ++ byteAt s (i + 1) ++ byteAt s i := by
  apply BitVec.eq_of_getLsbD_eq
  intro j hj
  simp only [le32, BitVec.getLsbD_or, BitVec.getLsbD_append, BitVec.getLsbD_shiftLeft, BitVec.getLsbD_setWidth,
    BitVec.zeroExtend]
  generalize byteAt s (i + 3) = a, byteAt s (i + 2) = b, byteAt s (i + 1) = c, byteAt s i = d
  interval_cases j <;> simp

/-- `le16` puts its two bytes side by side. -/
theorem le16_eq_append (s : List Byte) (i : Nat) : le16 s i = byteAt s (i + 1) ++ byteAt s i := by
  apply BitVec.eq_of_getLsbD_eq
  intro j hj
  simp only [le16, BitVec.getLsbD_or, BitVec.getLsbD_append, BitVec.getLsbD_shiftLeft, BitVec.getLsbD_setWidth,
    BitVec.zeroExtend]
  generalize byteAt s (i + 1) = c, byteAt s i = d
  interval_cases j <;> simp

/-- The four bytes of a value assemble to the value. -/
theorem le32_bytesLe32 (v : U32) (rest : List Byte) : le32 (bytesLe32 v ++ rest) 0 = v := by
  apply BitVec.eq_of_getLsbD_eq
  intro j hj
  simp only [le32_eq_append, bytesLe32, List.cons_append, List.nil_append, byteAt_cons_zero, byteAt_cons_succ,
    BitVec.getLsbD_append, BitVec.getLsbD_extractLsb']
  interval_cases j <;> simp

/-- The two bytes of a value assemble to the value. -/
theorem le16_bytesLe16 (v : U16) (rest : List Byte) : le16 (bytesLe16 v ++ rest) 0 = v := by
  apply BitVec.eq_of_getLsbD_eq
  intro j hj
  simp only [le16_eq_append, bytesLe16, List.cons_append, List.nil_append, byteAt_cons_zero, byteAt_cons_succ,
    BitVec.getLsbD_append, BitVec.getLsbD_extractLsb']
  interval_cases j <;> simp

/-- Four bytes assembled and split again. -/
theorem bytesLe32_append (b0 b1 b2 b3 : Byte) : bytesLe32 (b3 ++ b2 ++ b1 ++ b0) = [b0, b1, b2, b3] := by
  simp only [bytesLe32, List.cons.injEq, and_true]
  refine ⟨?_, ?_, ?_, ?_⟩ <;>
    (apply BitVec.eq_of_getLsbD_eq
     intro j hj
     simp only [BitVec.getLsbD_extractLsb', BitVec.getLsbD_append]
     interval_cases j <;> simp)

/-- Two bytes assembled and split again. -/
theorem bytesLe16_append (b0 b1 : Byte) : bytesLe16 (b1 ++ b0) = [b0, b1] := by
  simp only [bytesLe16, List.cons.injEq, and_true]
  refine ⟨?_, ?_⟩ <;>
    (apply BitVec.eq_of_getLsbD_eq
     intro j hj
     simp only [BitVec.getLsbD_extractLsb', BitVec.getLsbD_append]
     interval_cases j <;> simp)

/-- A byte of a value by division. -/
theorem extractLsb'_eq_div {n : Nat} (v : BitVec n) (k : Nat) :
    v.extractLsb' k 8 = BitVec.ofNat 8 (v.toNat / 2 ^ k) := by
  apply BitVec.eq_of_toNat_eq
  simp [BitVec.extractLsb'_toNat, Nat.shiftRight_eq_div_pow]

end Sys2Proof.Machine
end

