-- ==== Sys2Proof/Laws/Frame.lean ====
section
/-! SUPPORT. The frame's bytes and its fields: each field of a built frame reads back, and every full candidate is built
from its fields. -/

namespace Sys2Proof.Machine

@[simp] theorem frameBody_length (code : Byte) (ts : U32) (p : List Byte) : (frameBody code ts p).length = 6 + p.length := by
  simp [frameBody]; omega

@[simp] theorem frameBytes_length (code : Byte) (ts : U32) (p : List Byte) (crc : U16) (tail : Byte) :
    (frameBytes code ts p crc tail).length = 10 + p.length := by
  simp [frameBytes]; omega

/-- The bytes of a frame, the fixed fields spelled out. -/
theorem frameBytes_eq (code : Byte) (ts : U32) (p : List Byte) (crc : U16) (tail : Byte) :
    frameBytes code ts p crc tail
      = [header, BitVec.ofNat 8 p.length, code] ++ (bytesLe32 ts ++ (p ++ (bytesLe16 crc ++ [tail]))) := by
  simp [frameBytes, frameBody]

theorem frameBytes_header (code : Byte) (ts : U32) (p : List Byte) (crc : U16) (tail : Byte) :
    byteAt (frameBytes code ts p crc tail) 0 = header := rfl

theorem frameBytes_len (code : Byte) (ts : U32) (p : List Byte) (crc : U16) (tail : Byte) (h : p.length ≤ 255) :
    (byteAt (frameBytes code ts p crc tail) 1).toNat = p.length := by
  show (BitVec.ofNat 8 p.length).toNat = _
  simp; omega

theorem frameBytes_code (code : Byte) (ts : U32) (p : List Byte) (crc : U16) (tail : Byte) :
    byteAt (frameBytes code ts p crc tail) 2 = code := rfl

theorem frameBytes_timestamp (code : Byte) (ts : U32) (p : List Byte) (crc : U16) (tail : Byte) :
    le32 (frameBytes code ts p crc tail) 3 = ts := by
  have hd : (frameBytes code ts p crc tail).drop 3 = bytesLe32 ts ++ (p ++ (bytesLe16 crc ++ [tail])) := by
    rw [frameBytes_eq]; rfl
  have h := le32_drop (frameBytes code ts p crc tail) 3 0
  rw [hd, le32_bytesLe32] at h
  exact h.symm

theorem frameBytes_payload (code : Byte) (ts : U32) (p : List Byte) (crc : U16) (tail : Byte) :
    slice (frameBytes code ts p crc tail) 7 (7 + p.length) = p := by
  simp [slice, frameBytes_eq, bytesLe32]

theorem frameBytes_drop (code : Byte) (ts : U32) (p : List Byte) (crc : U16) (tail : Byte) :
    (frameBytes code ts p crc tail).drop (7 + p.length) = bytesLe16 crc ++ [tail] := by
  rw [frameBytes_eq, show 7 + p.length = p.length + 7 by omega]
  simp [bytesLe32]

theorem frameBytes_crc (code : Byte) (ts : U32) (p : List Byte) (crc : U16) (tail : Byte) :
    le16 (frameBytes code ts p crc tail) (7 + p.length) = crc := by
  have h := le16_drop (frameBytes code ts p crc tail) (7 + p.length) 0
  rw [frameBytes_drop, le16_bytesLe16] at h
  exact h.symm

theorem frameBytes_tail (code : Byte) (ts : U32) (p : List Byte) (crc : U16) (tail : Byte) :
    byteAt (frameBytes code ts p crc tail) (9 + p.length) = tail := by
  have h := byteAt_drop (frameBytes code ts p crc tail) (7 + p.length) 2
  rw [frameBytes_drop] at h
  rw [show 9 + p.length = 7 + p.length + 2 by omega, ← h]
  rfl

theorem frameBytes_body (code : Byte) (ts : U32) (p : List Byte) (crc : U16) (tail : Byte) :
    slice (frameBytes code ts p crc tail) 1 (7 + p.length) = frameBody code ts p := by
  have h : 7 + p.length - 1 = (frameBody code ts p).length := by simp
  simp [slice, frameBytes, h]

/-- A list of at least seven bytes, its first seven spelled out. -/
theorem exists_seven {c : List Byte} (h : 7 ≤ c.length) :
    ∃ b0 b1 b2 b3 b4 b5 b6 rest, c = b0 :: b1 :: b2 :: b3 :: b4 :: b5 :: b6 :: rest := by
  match c, h with
  | b0 :: b1 :: b2 :: b3 :: b4 :: b5 :: b6 :: rest, _ => exact ⟨b0, b1, b2, b3, b4, b5, b6, rest, rfl⟩

/-- Every full candidate is the frame of its fields. -/
theorem eq_frameBytes {c : List Byte} (h0 : byteAt c 0 = header) (hl : c.length = frameSize (byteAt c 1).toNat) :
    c = frameBytes (byteAt c 2) (le32 c 3) (slice c 7 (7 + (byteAt c 1).toNat)) (le16 c (7 + (byteAt c 1).toNat))
      (byteAt c (9 + (byteAt c 1).toNat)) := by
  obtain ⟨b0, b1, b2, b3, b4, b5, b6, rest, rfl⟩ := exists_seven (by rw [hl]; unfold frameSize; omega : 7 ≤ c.length)
  have hr : rest.length = b1.toNat + 3 := by
    simp [frameSize] at hl; omega
  have hd : (rest.drop b1.toNat).length = 3 := by simp [hr]
  obtain ⟨x, y, z, hxyz⟩ := List.length_eq_three.mp hd
  have hrest : rest = rest.take b1.toNat ++ [x, y, z] := by rw [← hxyz, List.take_append_drop]
  have hp : (rest.take b1.toNat).length = b1.toNat := by simp [hr]
  generalize rest.take b1.toNat = p at hrest hp
  subst hrest
  have h7 : ∀ k, byteAt (b0 :: b1 :: b2 :: b3 :: b4 :: b5 :: b6 :: (p ++ [x, y, z])) (7 + b1.toNat + k)
      = byteAt [x, y, z] k := by
    intro k
    rw [show 7 + b1.toNat + k = b1.toNat + k + 1 + 1 + 1 + 1 + 1 + 1 + 1 by omega]
    simp only [byteAt_cons_succ]
    rw [byteAt_append_right _ (by omega)]
    congr 1; omega
  have hcrc : le16 (b0 :: b1 :: b2 :: b3 :: b4 :: b5 :: b6 :: (p ++ [x, y, z])) (7 + b1.toNat) = y ++ x := by
    rw [le16_eq_append, h7 1, show 7 + b1.toNat = 7 + b1.toNat + 0 by omega, h7 0]; rfl
  have htail : byteAt (b0 :: b1 :: b2 :: b3 :: b4 :: b5 :: b6 :: (p ++ [x, y, z])) (9 + b1.toNat) = z := by
    rw [show 9 + b1.toNat = 7 + b1.toNat + 2 by omega, h7 2]; rfl
  have hts : le32 (b0 :: b1 :: b2 :: b3 :: b4 :: b5 :: b6 :: (p ++ [x, y, z])) 3 = b6 ++ b5 ++ b4 ++ b3 := by
    rw [le32_eq_append]; rfl
  have hpay : slice (b0 :: b1 :: b2 :: b3 :: b4 :: b5 :: b6 :: (p ++ [x, y, z])) 7 (7 + b1.toNat) = p := by
    simp [slice, hp]
  simp only [byteAt_cons_zero, byteAt_cons_succ] at h0 ⊢
  rw [hts, hpay, hcrc, htail, frameBytes_eq, bytesLe32_append, bytesLe16_append, h0, hp]
  simp

end Sys2Proof.Machine
end

