-- ==== Sys2Proof/Laws/Validator.lean ====
section
/-! SUPPORT. What VALIDATE says: by the size of the range, on a frame, and what an accepted range is. -/

namespace Sys2Proof.Machine

/-- A range that does not have its declared size (43_frame_validator.md R141). -/
theorem validate_wrongSize {cfg : Config} {r : List Byte}
    (h : r.length < 10 ∨ r.length ≠ frameSize (byteAt r 1).toNat) : validate cfg r = .error .lengthMismatch := by
  rw [validate]
  exact if_pos h

/-- A range of the declared size: header, then tail and checksum, then success (43 R142 to R145). -/
theorem validate_sized {cfg : Config} {r : List Byte} {l : Nat} (hl : (byteAt r 1).toNat = l)
    (hr : r.length = frameSize l) :
    validate cfg r =
      if byteAt r 0 ≠ header then .error .badHeader
      else (firstFailure cfg (byteAt r (9 + l) != tailByte) (crc16 (slice r 1 (7 + l)) != le16 r (7 + l))).elim
        (.ok { type := byteAt r 2, timestamp := le32 r 3, payload := slice r 7 (7 + l) }) .error := by
  have hs : ¬ (r.length < 10 ∨ r.length ≠ frameSize l) := by
    simp only [hr, frameSize]; omega
  subst hl
  rw [validate]
  refine (if_neg hs).trans ?_
  split
  · rfl
  · cases firstFailure cfg (byteAt r (9 + (byteAt r 1).toNat) != tailByte)
      (crc16 (slice r 1 (7 + (byteAt r 1).toNat)) != le16 r (7 + (byteAt r 1).toNat)) <;> rfl

/-- No check fails exactly when tail and checksum are right, in either order (43 R146). -/
theorem firstFailure_eq_none (cfg : Config) (t c : Bool) : firstFailure cfg t c = none ↔ t = false ∧ c = false := by
  unfold firstFailure
  cases cfg.rejectOrder <;> cases t <;> cases c <;> simp

/-- A failing check is the tail's or the checksum's. -/
theorem firstFailure_eq_some {cfg : Config} {t c : Bool} {e : RejectReason} (h : firstFailure cfg t c = some e) :
    (e = .badTail ∧ t = true) ∨ (e = .crcMismatch ∧ c = true) := by
  unfold firstFailure at h
  cases ho : cfg.rejectOrder <;> rw [ho] at h <;> cases t <;> cases c <;> simp_all

/-- VALIDATE on a frame of R60: only tail and checksum are left to check (43 R148). -/
theorem validate_frameBytes (cfg : Config) (code : Byte) (ts : U32) (p : List Byte) (crc : U16) (tail : Byte)
    (h : p.length ≤ 255) :
    validate cfg (frameBytes code ts p crc tail) =
      (firstFailure cfg (tail != tailByte) (crc16 (frameBody code ts p) != crc)).elim
        (.ok { type := code, timestamp := ts, payload := p }) .error := by
  rw [validate_sized (frameBytes_len code ts p crc tail h) (frameBytes_length code ts p crc tail), frameBytes_header,
    frameBytes_tail, frameBytes_crc, frameBytes_body, frameBytes_code, frameBytes_timestamp, frameBytes_payload]
  exact if_neg (by simp)

/-- What ENCODE builds is accepted (44_facade.md R157). -/
theorem validate_buildFrame (cfg : Config) (code : Byte) (ts : U32) (p : List Byte) (h : p.length ≤ 255) :
    validate cfg (buildFrame code ts p) = .ok { type := code, timestamp := ts, payload := p } := by
  rw [buildFrame, validate_frameBytes cfg _ _ _ _ _ h, (firstFailure_eq_none cfg _ _).mpr ⟨by simp, by simp⟩]
  rfl

/-- An accepted range has the declared size and starts with the header. -/
theorem validate_ok_form {cfg : Config} {r : List Byte} {v : Validated} (h : validate cfg r = .ok v) :
    byteAt r 0 = header ∧ r.length = frameSize (byteAt r 1).toNat := by
  by_cases hs : r.length < 10 ∨ r.length ≠ frameSize (byteAt r 1).toNat
  · rw [validate_wrongSize hs] at h; cases h
  · have hr : r.length = frameSize (byteAt r 1).toNat := by
      by_contra hc; exact hs (.inr hc)
    rw [validate_sized rfl hr] at h
    split at h
    · cases h
    · exact ⟨by simp_all, hr⟩

/-- The payload of a candidate has the declared length. -/
theorem payload_length {r : List Byte} (hr : r.length = frameSize (byteAt r 1).toNat) :
    (slice r 7 (7 + (byteAt r 1).toNat)).length = (byteAt r 1).toNat := by
  have := hr
  simp only [frameSize] at this
  simp [slice]; omega

/-- An accepted range is what ENCODE builds of the fields handed on (43 R145). -/
theorem validate_ok_built {cfg : Config} {r : List Byte} {v : Validated} (h : validate cfg r = .ok v) :
    v.payload.length ≤ 255 ∧ r = buildFrame v.type v.timestamp v.payload := by
  obtain ⟨h0, hl⟩ := validate_ok_form h
  have hp := payload_length hl
  have h8 := (byteAt r 1).isLt
  have hr := eq_frameBytes h0 hl
  generalize byteAt r 2 = code, le32 r 3 = ts, slice r 7 (7 + (byteAt r 1).toNat) = p,
    le16 r (7 + (byteAt r 1).toNat) = crc, byteAt r (9 + (byteAt r 1).toNat) = tail at hr hp
  rw [hr, validate_frameBytes cfg _ _ _ _ _ (by omega)] at h
  cases hf : firstFailure cfg (tail != tailByte) (crc16 (frameBody code ts p) != crc) with
  | some e => rw [hf] at h; cases h
  | none =>
    rw [hf] at h
    obtain ⟨ht, hc⟩ := (firstFailure_eq_none _ _ _).mp hf
    simp only [bne_eq_false_iff_eq] at ht hc
    cases h
    exact ⟨by simp only; omega, by rw [hr, buildFrame, ht, hc]⟩

end Sys2Proof.Machine
end

