-- ==== Sys2Proof/Laws/Assembler.lean ====
section
/-! SUPPORT. What resolving a candidate can do, and the four things the loop of FEED can
do with a stream: pass over bytes, wait, resolve a candidate, pass over a resolved one. -/

namespace Sys2Proof.Machine

/-! ### Resolving -/

/-- A resolved candidate moves `off` by at least one byte and never past the candidate (42_frame_assembler.md R136). -/
theorem resolve_advance (cfg : Config) {c : List Byte} (h : 1 ≤ c.length) :
    1 ≤ (resolve cfg c).advance ∧ (resolve cfg c).advance ≤ c.length := by
  unfold resolve
  split
  · exact ⟨Nat.le_refl 1, h⟩
  · split
    · unfold reject codecAdvance
      cases cfg.truncatedAdvance <;> simp [h]
    · exact ⟨h, Nat.le_refl _⟩

/-- An accepted candidate (42_frame_assembler.md R126). -/
theorem resolve_accepted {c : List Byte} {v : Validated} {f : PayloadVariant} (h : validate config c = .ok v)
    (hd : decodePayload config v.type v.payload = .ok f) :
    resolve config c = { outcome := .decoded { kind := kindOf v.type, timestamp := v.timestamp, fields := f }
                         advance := c.length } := by
  simp only [resolve, h, hd]

/-- A candidate the Validator refuses (R127). -/
theorem resolve_refused {c : List Byte} {e : RejectReason} (h : validate config c = .error e) :
    resolve config c = { outcome := .rejected e c, advance := 1 } := by
  simp only [resolve, h]; rfl

/-- A candidate the codec refuses (R128). -/
theorem resolve_truncated {c : List Byte} {v : Validated} {e : RejectReason} (h : validate config c = .ok v)
    (hd : decodePayload config v.type v.payload = .error e) :
    resolve config c = { outcome := .rejected e c, advance := c.length } := by
  simp only [resolve, h, hd]; rfl

/-! ### The loop -/

/-- A full candidate: a header byte and the declared number of bytes (42_frame_assembler.md R125). -/
def FullCandidate (c : List Byte) : Prop := byteAt c 0 = header ∧ c.length = frameSize (byteAt c 1).toNat

theorem FullCandidate.length_pos {c : List Byte} (h : FullCandidate c) : 1 ≤ c.length := by
  rw [h.2, frameSize]; omega

/-- The candidate at the front of a stream that starts with a full one. -/
theorem candidate?_append {c : List Byte} (h : FullCandidate c) (rest : List Byte) :
    candidate? (c ++ rest) = some c := by
  have h10 : 10 ≤ c.length := by rw [h.2, frameSize]; omega
  have h1 : byteAt (c ++ rest) 1 = byteAt c 1 := byteAt_append_left rest (by omega)
  have h2 := h.2
  rw [candidate?, h1, if_neg (by simp; omega), if_neg (by simp; omega), ← h2]
  simp

/-- A candidate taken from a stream that starts with the header is full, and the stream goes on behind it. -/
theorem candidate?_some {w c : List Byte} (h0 : byteAt w 0 = header) (h : candidate? w = some c) :
    FullCandidate c ∧ ∃ rest, w = c ++ rest := by
  unfold candidate? at h
  split at h
  · cases h
  · split at h
    · cases h
    · rename_i h7 hl
      have hw : w = w.take (frameSize (byteAt w 1).toNat) ++ w.drop (frameSize (byteAt w 1).toNat) :=
        (List.take_append_drop _ _).symm
      have hlen : (w.take (frameSize (byteAt w 1).toNat)).length = frameSize (byteAt w 1).toNat := by
        simp; omega
      simp only [Option.some.injEq] at h
      rw [h] at hw hlen
      have hb : ∀ i, i < c.length → byteAt w i = byteAt c i := by
        intro i hi; rw [hw, byteAt_append_left _ hi]
      have h10 : 10 ≤ c.length := by rw [hlen, frameSize]; omega
      refine ⟨⟨by rw [← hb 0 (by omega), h0], ?_⟩, _, hw⟩
      rw [← hb 1 (by omega)]; exact hlen

/-- No candidate yet, at a header byte: the buffer is at rest (10_state.md R23). -/
theorem candidate?_eq_none {b : Byte} {rest : List Byte} (h0 : b = header) :
    candidate? (b :: rest) = none ↔ atRest (b :: rest) = true := by
  subst h0
  have hrest : atRest (header :: rest) = true ↔
      (header :: rest).length < 2 ∨ (header :: rest).length < frameSize (byteAt (header :: rest) 1).toNat := by
    simp [atRest, declaredLength]
  have h10 : 10 ≤ frameSize (byteAt (header :: rest) 1).toNat := Nat.le_add_right _ _
  rw [hrest, candidate?]
  generalize frameSize (byteAt (header :: rest) 1).toNat = size at h10 ⊢
  generalize (header :: rest).length = n
  by_cases h7 : n < 7
  · exact ⟨fun _ => .inr (by omega), fun _ => by rw [if_pos h7]⟩
  · rw [if_neg h7]
    by_cases hl : n < size
    · exact ⟨fun _ => .inr hl, fun _ => by rw [if_pos hl]⟩
    · rw [if_neg hl]
      exact ⟨(nomatch ·), fun h => by omega⟩

/-- SCAN passes over bytes that are not the header (42_frame_assembler.md R122). -/
theorem resolveFrom_noise (cfg : Config) {noise : List Byte} (h : ∀ b ∈ noise, b ≠ header) (w : List Byte) :
    resolveFrom cfg 0 (noise ++ w) = resolveFrom cfg 0 w := by
  induction noise with
  | nil => rfl
  | cons b rest ih =>
    rw [List.cons_append, resolveFrom, if_pos (h b (by simp)), ih fun x hx => h x (by simp [hx])]

/-- The bytes of a resolved frame are passed over, whatever they are. -/
theorem resolveFrom_skip (cfg : Config) (k : Nat) (w : List Byte) :
    resolveFrom cfg k w = resolveFrom cfg 0 (w.drop k) := by
  induction w generalizing k with
  | nil => cases k <;> simp [resolveFrom]
  | cons b rest ih =>
    cases k with
    | zero => simp
    | succ k => rw [resolveFrom, ih k]; simp

/-- The loop waits on a buffer at rest (42_frame_assembler.md R123, R124, R133). -/
theorem resolveFrom_atRest (cfg : Config) {w : List Byte} (h : atRest w = true) : resolveFrom cfg 0 w = ([], w) := by
  cases w with
  | nil => rfl
  | cons b rest =>
    have h0 : b = header := by
      simp only [atRest, List.isEmpty_cons, byteAt_cons_zero, Bool.false_or, Bool.and_eq_true, beq_iff_eq] at h
      exact h.1
    rw [resolveFrom, if_neg (by simp [h0]), (candidate?_eq_none h0).mpr h]

/-- The loop resolves a full candidate and goes on as far behind its header as the verdict says (42 R126 to R128). -/
theorem resolveFrom_candidate (cfg : Config) {c : List Byte} (h : FullCandidate c) (rest : List Byte) :
    resolveFrom cfg 0 (c ++ rest) =
      ((resolve cfg c).outcome :: (resolveFrom cfg 0 (c.drop (resolve cfg c).advance ++ rest)).1,
        (resolveFrom cfg 0 (c.drop (resolve cfg c).advance ++ rest)).2) := by
  have hc := candidate?_append h rest
  have ha := resolve_advance cfg h.length_pos
  have h0 := h.1
  cases c with
  | nil => simp at ha; omega
  | cons b t =>
    obtain ⟨k, hk⟩ : ∃ k, (resolve cfg (b :: t)).advance = k + 1 := ⟨_, (Nat.succ_pred (by omega)).symm⟩
    have hk' : k ≤ t.length := by simp [hk] at ha; omega
    rw [List.cons_append] at hc ⊢
    rw [resolveFrom, if_neg (by simpa using h0), hc]
    simp only [hk, Nat.add_sub_cancel, List.drop_succ_cons]
    rw [resolveFrom_skip cfg k, List.drop_append_of_le_length hk']

/-- Every stream is bytes without a header, then nothing, an incomplete candidate, or a full one. -/
theorem stream_cases (w : List Byte) :
    ∃ noise w', w = noise ++ w' ∧ (∀ b ∈ noise, b ≠ header) ∧
      (atRest w' = true ∨ ∃ c rest, w' = c ++ rest ∧ FullCandidate c) := by
  induction w with
  | nil => exact ⟨[], [], rfl, by simp, .inl rfl⟩
  | cons b t ih =>
    by_cases hb : b = header
    · refine ⟨[], b :: t, rfl, by simp, ?_⟩
      cases hc : candidate? (b :: t) with
      | none => exact .inl ((candidate?_eq_none hb).mp hc)
      | some c =>
        obtain ⟨hfull, rest, hw⟩ := candidate?_some (by simpa using hb) hc
        exact .inr ⟨c, rest, hw, hfull⟩
    · obtain ⟨noise, w', rfl, hn, hw'⟩ := ih
      exact ⟨b :: noise, w', rfl, by simpa [hb] using hn, hw'⟩

/-- Induction along the loop: what holds when it waits, and carries over from behind a resolved candidate, holds of every
stream. -/
theorem stream_induction (cfg : Config) {P : List Byte → Prop}
    (rest : ∀ noise w, (∀ b ∈ noise, b ≠ header) → atRest w = true → P (noise ++ w))
    (candidate : ∀ noise c w, (∀ b ∈ noise, b ≠ header) → FullCandidate c →
      P (c.drop (resolve cfg c).advance ++ w) → P (noise ++ (c ++ w))) (w : List Byte) : P w := by
  induction hn : w.length using Nat.strong_induction_on generalizing w with
  | _ n ih =>
    obtain ⟨noise, w', rfl, hnoise, hw' | ⟨c, t, rfl, hc⟩⟩ := stream_cases w
    · exact rest noise w' hnoise hw'
    · refine candidate noise c t hnoise hc (ih _ ?_ _ rfl)
      have := (resolve_advance cfg hc.length_pos).1
      have := hc.length_pos
      simp at hn ⊢
      omega

/-- What stays in the buffer is the end of the stream (R129). -/
theorem resolveFrom_suffix (cfg : Config) (w : List Byte) : ∃ front, w = front ++ (resolveFrom cfg 0 w).2 := by
  induction w using stream_induction cfg with
  | rest noise w hn hw => exact ⟨noise, by rw [resolveFrom_noise cfg hn, resolveFrom_atRest cfg hw]⟩
  | candidate noise c w hn hc ih =>
    obtain ⟨f, hf⟩ := ih
    rw [resolveFrom_noise cfg hn, resolveFrom_candidate cfg hc]
    refine ⟨noise ++ (c.take (resolve cfg c).advance ++ f), ?_⟩
    simp only [List.append_assoc]
    rw [← hf, ← List.append_assoc (c.take _), List.take_append_drop]

/-! ### The form of the memory -/

/-- Appending and dropping are the only memory operations, and the loop drops to a buffer at rest (10_state.md R23). -/
theorem resolveFrom_wf (cfg : Config) (k : Nat) (w : List Byte) : Memory.wf (resolveFrom cfg k w).2 = true := by
  rw [resolveFrom_skip]
  induction w.drop k using stream_induction cfg with
  | rest noise w hn hw => rw [resolveFrom_noise cfg hn, resolveFrom_atRest cfg hw]; exact hw
  | candidate noise c w hn hc ih => rw [resolveFrom_noise cfg hn, resolveFrom_candidate cfg hc]; exact ih

theorem feed_wf (cfg : Config) (buf chunk : List Byte) : Memory.wf (feed cfg buf chunk).2 = true :=
  resolveFrom_wf cfg 0 _

theorem reset_wf : Memory.wf State.reset.buf = true := rfl

end Sys2Proof.Machine
end

