-- ==== Sys2Proof/Laws/Checksum.lean ====
section
/-! SUPPORT. The checksum of an appended input, and the bit step as arithmetic. -/

namespace Sys2Proof.Machine

/-- 40_checksum.md R90: a left fold, so an input can be cut anywhere. -/
theorem crc16_append (a b : List Byte) : crc16 (a ++ b) = b.foldl crcByte (crc16 a) := by
  simp [crc16, List.foldl_append]

theorem crc16_concat (a : List Byte) (b : Byte) : crc16 (a ++ [b]) = crcByte (crc16 a) b := by
  simp [crc16_append]

/-- The bit tested by a bit step is the parity of the register (R92). -/
theorem crcBit_even {r : U16} (h : r.toNat % 2 = 0) : (crcBit r).toNat = r.toNat / 2 := by
  have : r.getLsbD 0 = false := by simp [BitVec.getLsbD, Nat.testBit_zero, h]
  rw [crcBit, this]; simp [Nat.shiftRight_eq_div_pow]

theorem crcBit_odd {r : U16} (h : r.toNat % 2 = 1) : (crcBit r).toNat = (r.toNat / 2) ^^^ 0xA001 := by
  have : r.getLsbD 0 = true := by simp [BitVec.getLsbD, Nat.testBit_zero, h]
  rw [crcBit, this]; simp [crcPoly, Nat.shiftRight_eq_div_pow]

end Sys2Proof.Machine
end

