-- ==== Sys2Proof/Laws/Codec.lean ====
section
/-! SUPPORT. What the codec says, by layout: DECODE fails only on a short payload, ENCODE gives the layout's size. -/

namespace Sys2Proof.Machine

/-- Only three codes have a layout (30_encoding.md R71). -/
theorem layout_cases (code : Byte) :
    (layoutOf (kindOf code) = .status ∧ code = 0x10) ∨ (layoutOf (kindOf code) = .force ∧ code = 0x30) ∨
      (layoutOf (kindOf code) = .heartbeat ∧ code = 0x90) ∨
        (layoutOf (kindOf code) = .raw ∧ code ≠ 0x10 ∧ code ≠ 0x30 ∧ code ≠ 0x90) := by
  revert code; decide

/-- The kind keeps the code (41_payload_codec.md R101). -/
@[simp] theorem codeOf_kindOf (code : Byte) : codeOf (kindOf code) = code := by
  revert code; decide

/-- A short payload (41_payload_codec.md R102). -/
theorem decodePayload_short {cfg : Config} {code : Byte} {p : List Byte} (h : p.length < layoutSize (layoutOf (kindOf code))) :
    decodePayload cfg code p = .error .truncatedPayload := by
  rw [decodePayload]; exact if_pos h

/-- A payload that is not short, by layout (R103 to R107). -/
theorem decodePayload_full {code : Byte} {p : List Byte} (h : layoutSize (layoutOf (kindOf code)) ≤ p.length) :
    decodePayload config code p = .ok (match layoutOf (kindOf code) with
      | .status => decodeStatus p
      | .force => decodeForceControl p
      | .heartbeat => decodeHeartbeat p
      | .raw => .raw p) := by
  rw [decodePayload]
  refine (if_neg (by omega)).trans ?_
  rw [show longPayloadError config (layoutOf (kindOf code)) p.length = none from rfl]
  rcases layout_cases code with ⟨hl, _⟩ | ⟨hl, _⟩ | ⟨hl, _⟩ | ⟨hl, _⟩ <;> simp only [hl]

/-- ENCODE_PAYLOAD of a code without a layout (41_payload_codec.md R114). -/
theorem encodePayload_raw {code : Byte} {f : Fields} (h1 : code ≠ 0x10) (h2 : code ≠ 0x30) (h3 : code ≠ 0x90) :
    encodePayload code f = if f.raw.length ≤ 255 then .ok f.raw else .error .payloadTooLong := by
  rcases layout_cases code with ⟨_, rfl⟩ | ⟨_, rfl⟩ | ⟨_, rfl⟩ | ⟨hl, _⟩
  · exact absurd rfl h1
  · exact absurd rfl h2
  · exact absurd rfl h3
  · rw [encodePayload, hl]; rfl

/-- An encoded payload fits the length byte (30_encoding.md R62). -/
theorem encodePayload_length {code : Byte} {f : Fields} {p : List Byte} (h : encodePayload code f = .ok p) :
    p.length ≤ 255 := by
  rcases layout_cases code with ⟨_, rfl⟩ | ⟨_, rfl⟩ | ⟨_, rfl⟩ | ⟨_, h1, h2, h3⟩
  · rcases f with ⟨_ | _, _ | _, _ | _, _ | _, _ | _, _ | _, _ | _, _ | _, _ | _, _, _, _, _, _, _, _⟩ <;> cases h
    show 24 ≤ 255; omega
  · rcases f with ⟨_, _ | _, _, _, _, _, _, _, _, _ | _, _ | _, _, _, _, _, _⟩ <;> cases h
    show 17 ≤ 255; omega
  · rcases f with ⟨_, _, _, _, _, _, _, _, _, _, _, _, _, _ | _, _ | _, _⟩ <;> cases h
    show 5 ≤ 255; omega
  · rw [encodePayload_raw h1 h2 h3] at h
    split at h
    · cases h; assumption
    · cases h

/-- Cutting a record down to its kind changes nothing the codec reads (41_payload_codec.md R110, log 12). -/
theorem encodePayload_restrict (code : Byte) (f : Fields) :
    encodePayload code (restrictFields (layoutOf (kindOf code)) f) = encodePayload code f := by
  rcases layout_cases code with ⟨hl, _⟩ | ⟨hl, _⟩ | ⟨hl, _⟩ | ⟨hl, _⟩ <;> simp only [encodePayload, hl] <;> rfl

theorem restrictFields_idem (l : Layout) (f : Fields) : restrictFields l (restrictFields l f) = restrictFields l f := by
  cases l <;> rfl

end Sys2Proof.Machine
end

