-- ==== Sys2Proof/Laws/Decode.lean ====
section
/-! SUPPORT. What decoding a byte string says, and what a FRAME row of any kind is. -/

namespace Sys2Proof

open Sys2Proof.Machine

/-- A frame with any checksum and tail is a full candidate (30_encoding.md R60). -/
theorem frameBytes_full (code : Byte) (ts : U32) (p : List Byte) (crc : U16) (tail : Byte) (h : p.length ≤ 255) :
    FullCandidate (frameBytes code ts p crc tail) :=
  ⟨frameBytes_header .., by rw [frameBytes_len _ _ _ _ _ h, frameBytes_length]⟩

/-- A full candidate decodes to the FRAME row of its fields. -/
theorem decodeFrame_full {r : List Byte} (h : FullCandidate r) :
    decodeFrame r = .ok (frameInstr (kindOf (byteAt r 2)) (le32 r 3) (slice r 7 (7 + (byteAt r 1).toNat))
      (le16 r (7 + (byteAt r 1).toNat)) (byteAt r (9 + (byteAt r 1).toNat))) := by
  have h2 := h.2
  unfold decodeFrame
  simp only
  rw [if_neg (by simp only [frameSize] at h2; omega), if_neg (by simp [h.1]), if_neg (by simp [← h2])]

/-- Nothing but a full candidate decodes. -/
theorem decodeFrame_ok {r : List Byte} {i : Instr} (h : decodeFrame r = .ok i) : FullCandidate r := by
  unfold decodeFrame at h
  simp only at h
  split_ifs at h with h1 h2 h3
  exact ⟨not_not.mp h2, not_not.mp h3⟩

/-- The row of a kind puts the bytes of its frame on the wire. -/
theorem encode_frameInstr (k : PacketKind) (ts : U32) (p : List Byte) (crc : U16) (tail : Byte) :
    encode (frameInstr k ts p crc tail) = .wire (frameBytes (codeOf k) ts p crc tail) := by
  cases k <;> rfl

/-- The row of a kind has the effect of the FEED of its frame's bytes (log 3). -/
theorem exec_frameInstr (k : PacketKind) (ts : U32) (p : List Byte) (crc : U16) (tail : Byte) (s : State) :
    exec (frameInstr k ts p crc tail) s = .next (s.feed (frameBytes (codeOf k) ts p crc tail)) := by
  cases k <;> rfl

end Sys2Proof
end

