-- ==== Sys2Proof/Laws/PerInstr.lean ====
section
/-! SUPPORT. Per instruction: its encoding matches its row of spec/opcode_table.json. -/

namespace Sys2Proof.Laws.EncodingMatchesRow

open Sys2Proof Sys2Proof.Machine

/-- The encoding of a well-formed instruction has the fixed bits of its row; the UNKNOWN row is the only one that a row
of lower priority shares bits with (30_encoding.md section 8), and a well-formed UNKNOWN has no named code. -/
def Statement (i : Instr) : Prop :=
  WellFormed i = true → tableWord (encode i) &&& (tableRow i).1 = (tableRow i).2

/-- The low three bytes of a frame under the mask of the header and the type byte. -/
theorem frame_word (len code : Byte) :
    (0xAA + 256 * len.toNat + 65536 * code.toNat) &&& 0xFF00FF = 0xAA + 65536 * code.toNat := by
  have h : ∀ x y : Byte, ((0#8 ++ y ++ x ++ 0xAA#8 : BitVec 32) &&& 0xFF00FF#32) = (0#8 ++ y ++ 0#8 ++ 0xAA#8 : BitVec 32) := by
    intro x y
    apply BitVec.eq_of_getLsbD_eq
    intro j hj
    simp only [BitVec.getLsbD_and, BitVec.getLsbD_append]
    interval_cases j <;> simp
  have h2 := congrArg BitVec.toNat (h len code)
  simp only [BitVec.toNat_and, BitVec.toNat_append, BitVec.toNat_ofNat] at h2
  have e1 : ∀ a b : Byte, ((0 <<< 8 ||| b.toNat) <<< 8 ||| a.toNat) <<< 8 ||| 0xAA = 0xAA + 256 * a.toNat + 65536 * b.toNat := by
    intro a b
    have ha := a.isLt
    rw [← Nat.shiftLeft_add_eq_or_of_lt (by omega), ← Nat.shiftLeft_add_eq_or_of_lt (by omega),
      ← Nat.shiftLeft_add_eq_or_of_lt b.isLt]
    simp only [Nat.shiftLeft_eq]
    omega
  have e2 := e1 len code
  have e3 := e1 0 code
  rw [← e2]
  refine h2.trans ?_
  simpa using e3

/-- The table's word of a frame. -/
theorem tableWord_wireOf (code : Byte) (ts : U32) (p : List Byte) (crc : U16) (tail : Byte) :
    tableWord (wireOf code ts p crc tail) = 0xAA + 256 * (BitVec.ofNat 8 p.length).toNat + 65536 * code.toNat := rfl

theorem crc16 (data : List Byte) : Statement (.crc16 data) := fun _ => by
  show (0 : Nat) &&& 0x7 = 0
  rfl

theorem push (b : Byte) : Statement (.push b) := fun _ => by
  show (1 : Nat) &&& 0x7 = 1
  rfl

theorem feed (chunk : List Byte) : Statement (.feed chunk) := fun _ => by
  show (2 : Nat) &&& 0x7 = 2
  rfl

theorem reset : Statement .reset := fun _ => by
  show (3 : Nat) &&& 0x7 = 3
  rfl

theorem validate (r : List Byte) : Statement (.validate r) := fun _ => by
  show (4 : Nat) &&& 0x7 = 4
  rfl

theorem decode (code : Byte) (payload : List Byte) : Statement (.decode code payload) := fun _ => by
  show (5 : Nat) &&& 0x7 = 5
  rfl

theorem encode (code : Byte) (fields : Fields) (nowMs : Nat) : Statement (.encode code fields nowMs) := fun _ => by
  show (6 : Nat) &&& 0x7 = 6
  rfl

theorem reservedCmd7 : Statement .reservedCmd7 := fun _ => by
  show (7 : Nat) &&& 0x7 = 7
  rfl

theorem handshake (ts : U32) (p : List Byte) (crc : U16) (tail : Byte) : Statement (.handshake ts p crc tail) :=
  fun _ => frame_word (BitVec.ofNat 8 p.length) 0x00

theorem status (ts : U32) (p : List Byte) (crc : U16) (tail : Byte) : Statement (.status ts p crc tail) :=
  fun _ => frame_word (BitVec.ofNat 8 p.length) 0x10

theorem alert (ts : U32) (p : List Byte) (crc : U16) (tail : Byte) : Statement (.alert ts p crc tail) :=
  fun _ => frame_word (BitVec.ofNat 8 p.length) 0x20

theorem complete (ts : U32) (p : List Byte) (crc : U16) (tail : Byte) : Statement (.complete ts p crc tail) :=
  fun _ => frame_word (BitVec.ofNat 8 p.length) 0x21

theorem forceControl (ts : U32) (p : List Byte) (crc : U16) (tail : Byte) : Statement (.forceControl ts p crc tail) :=
  fun _ => frame_word (BitVec.ofNat 8 p.length) 0x30

theorem positionControl (ts : U32) (p : List Byte) (crc : U16) (tail : Byte) : Statement (.positionControl ts p crc tail) :=
  fun _ => frame_word (BitVec.ofNat 8 p.length) 0x31

theorem hybridControl (ts : U32) (p : List Byte) (crc : U16) (tail : Byte) : Statement (.hybridControl ts p crc tail) :=
  fun _ => frame_word (BitVec.ofNat 8 p.length) 0x32

theorem parameterSet (ts : U32) (p : List Byte) (crc : U16) (tail : Byte) : Statement (.parameterSet ts p crc tail) :=
  fun _ => frame_word (BitVec.ofNat 8 p.length) 0x40

theorem emergencyStop (ts : U32) (p : List Byte) (crc : U16) (tail : Byte) : Statement (.emergencyStop ts p crc tail) :=
  fun _ => frame_word (BitVec.ofNat 8 p.length) 0x50

theorem response (ts : U32) (p : List Byte) (crc : U16) (tail : Byte) : Statement (.response ts p crc tail) :=
  fun _ => frame_word (BitVec.ofNat 8 p.length) 0x80

theorem heartbeat (ts : U32) (p : List Byte) (crc : U16) (tail : Byte) : Statement (.heartbeat ts p crc tail) :=
  fun _ => frame_word (BitVec.ofNat 8 p.length) 0x90

theorem unknown (code : Byte) (ts : U32) (p : List Byte) (crc : U16) (tail : Byte) : Statement (.unknown code ts p crc tail) := by
  intro _
  show (0xAA + 256 * (BitVec.ofNat 8 p.length).toNat + 65536 * code.toNat) &&& (2 ^ 8 - 1) = 0xAA
  rw [Nat.and_two_pow_sub_one_eq_mod]
  omega

end Sys2Proof.Laws.EncodingMatchesRow
end

