-- ==== Sys2Proof/Tests/Slice0.lean ====
section
/-! SUPPORT. The model's own tests. Expected values are those of spec/95_test_vectors.md (the vector's name stands in the
docstring) or are written out by hand from the rule named there; and for every statement with hypotheses, values that meet
them. -/

namespace Sys2Proof.Tests

open Sys2Proof Sys2Proof.Machine Sys2Proof.Reference

/-! The evaluations below run one after another: a thread for each of them at once is more than a limited process gets. -/
set_option Elab.async false

/-! ### Helpers -/

/-- An instance that holds these bytes. -/
def holding (buf : List Byte) : State := { State.reset with buf := buf }

/-- What an instruction returns, and the buffer after it. -/
def seen (i : Instr) (s : State) : Option (Result × List Byte) :=
  match exec i s with
  | .next t => some (t.returned, t.buf)
  | _ => none

/-- E1: HANDSHAKE, `ts = 0`. -/
def e1 : List Byte := [0xAA, 0x00, 0x00, 0x00, 0x00, 0x00, 0x00, 0x00, 0x1B, 0x55]

/-- The payload of E2. -/
def e2Payload : List Byte :=
  [0x00, 0x00, 0xC0, 0x3F, 0xCD, 0xCC, 0x4C, 0x3E, 0x00, 0x00, 0x34, 0x42, 0x00, 0x00, 0x20, 0x41] ++
    [0x01, 0x00, 0x00, 0x00, 0x00, 0x00, 0x00, 0x00]

/-- The payload of E3 with the defaults. -/
def e3Payload : List Byte :=
  [0x01, 0x00, 0x00, 0x20, 0x40, 0x00, 0x00, 0x00, 0x3F, 0x00, 0x00, 0xA0, 0x40, 0x00, 0x00, 0x00, 0x00]

/-- F1. -/
def f1 : List Byte := [0xAA, 0x05, 0x90, 0x10, 0x00, 0x00, 0x00, 0x10, 0x00, 0x00, 0x00, 0x01, 0xDC, 0x96, 0x55]

/-- F2. -/
def f2 : List Byte := [0xAA, 0x05, 0x90, 0x20, 0x00, 0x00, 0x00, 0x20, 0x00, 0x00, 0x00, 0x02, 0x88, 0x92, 0x55]

/-- The packet of F1. -/
def packet1 : Packet := ⟨.heartbeat, 0x10, .heartbeat 0x10 1⟩

/-- The packet of F2. -/
def packet2 : Packet := ⟨.heartbeat, 0x20, .heartbeat 0x20 2⟩

/-- T of A11. -/
def truncated : List Byte := [0xAA, 0x03, 0x90, 0x05, 0x00, 0x00, 0x00, 0x01, 0x02, 0x03, 0x52, 0xCD, 0x55]

/-- A field record with every field of STATUS. -/
def statusFields : Fields :=
  { forceValue := some 0x3FC00000, forceRate := some 0x3E4CCCCD, position := some 0x42340000,
    velocity := some 0x41200000, motorEnabled := some 1, positionReached := some 0, stallDetected := some 0,
    emergencyStop := some 0, errorCode := some 0 }

/-- The record of E3, the two fields with defaults absent. -/
def forceFields : Fields := { mode := some 1, targetForce := some 0x40200000, forceRate := some 0x3F000000 }

/-! ### WellFormed refuses -/

theorem test_wf_payload_256 : WellFormed (.handshake 0 (List.replicate 256 0) 0 0) = false := by decide +kernel
theorem test_wf_payload_255 : WellFormed (.handshake 0 (List.replicate 255 0) 0 0) = true := by decide +kernel
theorem test_wf_unknown_with_named_code : WellFormed (.unknown 0x90 0 [] 0 0) = false := by decide
theorem test_wf_unknown_payload : WellFormed (.unknown 0x99 0 (List.replicate 256 0) 0 0) = false := by decide +kernel
theorem test_wf_stray_field : WellFormed (.encode 0x90 { mode := some 0 } 0) = false := by decide
theorem test_wf_stray_raw : WellFormed (.encode 0x10 { raw := [0] } 0) = false := by decide
theorem test_wf_own_fields : WellFormed (.encode 0x10 statusFields 0) = true := by decide

/-! ### Decoding: a select code or a frame written out for every row -/

theorem test_decode_crc16 : decode (.command { cmd := 0b000, data := [0x31] }) = .crc16 [0x31] := by decide
theorem test_decode_push : decode (.command { cmd := 0b001, b := 0xAA }) = .push 0xAA := by decide
theorem test_decode_feed : decode (.command { cmd := 0b010, data := [1, 2] }) = .feed [1, 2] := by decide
theorem test_decode_reset : decode (.command { cmd := 0b011, data := [1] }) = .reset := by decide
theorem test_decode_validate : decode (.command { cmd := 0b100, data := [0xAA] }) = .validate [0xAA] := by decide
theorem test_decode_decode : decode (.command { cmd := 0b101, code := 0x99, data := [7] }) = .decode 0x99 [7] := by decide
theorem test_decode_encode :
    decode (.command { cmd := 0b110, code := 0x90, fields := { status := some 1, mode := some 2 }, nowMs := 5 })
      = .encode 0x90 { status := some 1 } 5 := by decide
theorem test_decode_reserved : decode (.command { cmd := 0b111 }) = .reservedCmd7 := by decide

theorem test_decode_handshake : decode (.wire e1) = .handshake 0 [] 0x1B00 0x55 := by decide
theorem test_decode_status :
    decode (.wire ([0xAA, 0x18, 0x10, 0x78, 0x56, 0x34, 0x12] ++ e2Payload ++ [0x13, 0x20, 0x55]))
      = .status 0x12345678 e2Payload 0x2013 0x55 := by decide
theorem test_decode_alert :
    decode (.wire [0xAA, 0x01, 0x20, 0x00, 0x00, 0x00, 0x01, 0xFF, 0x34, 0x12, 0x00])
      = .alert 0x01000000 [0xFF] 0x1234 0x00 := by decide
theorem test_decode_complete :
    decode (.wire [0xAA, 0x00, 0x21, 0x01, 0x02, 0x03, 0x04, 0xCD, 0xAB, 0x55])
      = .complete 0x04030201 [] 0xABCD 0x55 := by decide
theorem test_decode_forceControl :
    decode (.wire ([0xAA, 0x11, 0x30, 0xE8, 0x03, 0x00, 0x00] ++ e3Payload ++ [0xC0, 0x47, 0x55]))
      = .forceControl 1000 e3Payload 0x47C0 0x55 := by decide
theorem test_decode_positionControl :
    decode (.wire [0xAA, 0x02, 0x31, 0x00, 0x00, 0x00, 0x00, 0x01, 0x02, 0x00, 0x01, 0x55])
      = .positionControl 0 [1, 2] 0x0100 0x55 := by decide
theorem test_decode_hybridControl :
    decode (.wire [0xAA, 0x00, 0x32, 0x00, 0x00, 0x00, 0x80, 0x01, 0x80, 0x54])
      = .hybridControl 0x80000000 [] 0x8001 0x54 := by decide
theorem test_decode_parameterSet :
    decode (.wire [0xAA, 0x01, 0x40, 0x05, 0x00, 0x00, 0x00, 0xAA, 0xAA, 0x55, 0x55])
      = .parameterSet 5 [0xAA] 0x55AA 0x55 := by decide
theorem test_decode_emergencyStop :
    decode (.wire [0xAA, 0x00, 0x50, 0xFF, 0xFF, 0xFF, 0xFF, 0xC1, 0x83, 0x55])
      = .emergencyStop 0xFFFFFFFF [] 0x83C1 0x55 := by decide
theorem test_decode_response :
    decode (.wire [0xAA, 0x00, 0x80, 0x00, 0x01, 0x00, 0x00, 0x00, 0xFF, 0x55])
      = .response 0x100 [] 0xFF00 0x55 := by decide
theorem test_decode_heartbeat :
    decode (.wire f1) = .heartbeat 0x10 [0x10, 0x00, 0x00, 0x00, 0x01] 0x96DC 0x55 := by decide
theorem test_decode_unknown :
    decode (.wire [0xAA, 0x04, 0x99, 0x07, 0x00, 0x00, 0x00, 0xDE, 0xAD, 0xBE, 0xEF, 0x2D, 0x87, 0x55])
      = .unknown 0x99 7 [0xDE, 0xAD, 0xBE, 0xEF] 0x872D 0x55 := by decide

/-- A chunk that is not exactly one candidate is the FEED of its bytes: one byte more, one less, no header. -/
theorem test_decode_not_one_frame :
    decode (.wire (e1 ++ [0])) = .feed (e1 ++ [0]) ∧ decode (.wire (f1.take 14)) = .feed (f1.take 14) ∧
      decode (.wire (0xAB :: e1.drop 1)) = .feed (0xAB :: e1.drop 1) ∧ decode (.wire []) = .feed [] := by decide

/-- decodeFrame refuses by name. -/
theorem test_decodeFrame_refuses :
    (match decodeFrame (e1.take 9) with | .error .tooShort => true | _ => false) = true ∧
      (match decodeFrame (0x00 :: e1.drop 1) with | .error .noHeader => true | _ => false) = true ∧
      (match decodeFrame (e1 ++ [0]) with | .error .sizeMismatch => true | _ => false) = true := by decide

theorem test_tableWord_select : decodeTableWord 8 0b110 = some (.encode 0x00 {} 0) := by decide
theorem test_tableWord_status : decodeTableWord 24 0x1018AA = some (.status 0 (List.replicate 24 0) 0 0) := by decide
theorem test_tableWord_unknown : decodeTableWord 24 0x9900AA = some (.unknown 0x99 0 [] 0 0) := by decide
theorem test_tableWord_no_header : decodeTableWord 24 0x1018AB = none := by decide

/-- The step runs the word placed at the port, before calls that were pending. -/
theorem test_withFetchWord :
    step (((holding f1).post (.command { cmd := 1 })).withFetchWord 8 3)
      = .next { buf := [], port := [.command { cmd := 1 }], returned := .nothing } := rfl

/-! ### Reset and the views -/

theorem test_reset_wf : Memory.wf State.reset.buf = true ∧ Safe State.reset := ⟨rfl, rfl⟩

/-- A2: the phase after each byte of F1. -/
theorem test_phase_A2 :
    (List.range 15).map (fun n => phase (f1.take n)) =
      [.seekHeader, .readLength, .readType, .readTimestamp, .readTimestamp, .readTimestamp, .readTimestamp,
        .readPayload, .readPayload, .readPayload, .readPayload, .readPayload, .readCrc, .readCrc, .readTail] := by decide

/-- A2, last sentence: with no payload the seventh byte leads to ReadCrc; then R22's last two names. -/
theorem test_phase_no_payload :
    phase (e1.take 6) = .readTimestamp ∧ phase (e1.take 7) = .readCrc ∧ phase (e1.take 9) = .readTail ∧
      phase e1 = .resolve := by decide

/-- R23: at rest or not; the maximum is 264 bytes (A13). -/
theorem test_atRest :
    atRest [] = true ∧ atRest [0xAA] = true ∧ atRest [0x00] = false ∧ atRest (f1.take 14) = true ∧ atRest f1 = false ∧
      atRest (0xAA :: 0xFF :: List.replicate 262 0) = true ∧ atRest (0xAA :: 0xFF :: List.replicate 263 0) = false := by
  decide +kernel

/-- 30_encoding.md R71, all eleven names and a neighbour of each block. -/
theorem test_kindOf :
    [0x00, 0x10, 0x20, 0x21, 0x30, 0x31, 0x32, 0x40, 0x50, 0x80, 0x90, 0x01, 0x22, 0x33, 0x91, 0xFF].map kindOf =
      [.handshake, .status, .alert, .complete, .forceControl, .positionControl, .hybridControl, .parameterSet,
        .emergencyStop, .response, .heartbeat, .unknown 0x01, .unknown 0x22, .unknown 0x33, .unknown 0x91,
        .unknown 0xFF] := by decide

/-- 60_exceptions.md R170: the numeric codes, and which of them are errors. -/
theorem test_reasons :
    ([.ok, .incomplete, .reject .badHeader, .reject .badTail, .reject .lengthMismatch, .reject .crcMismatch,
        .reject .truncatedPayload, .unknownKind, .encode .missingRequiredField, .encode .payloadTooLong].map
      fun r => (reasonCode r, reasonIsError r)) =
      [(0, false), (1, false), (2, true), (3, true), (4, true), (5, true), (6, true), (7, false), (8, true), (9, true)] := by
  decide

/-- 60_exceptions.md R177: an unknown kind is a success with a name of its own. -/
theorem test_outcomeReason :
    outcomeReason (.decoded ⟨.unknown 0x99, 7, .raw []⟩) = .unknownKind ∧ outcomeReason (.decoded packet1) = .ok ∧
      outcomeReason (.rejected .badTail []) = .reject .badTail := by decide

/-! ### One step of each instruction -/

/-- S1, K2. -/
theorem test_crc16_check :
    seen (.crc16 [0x31, 0x32, 0x33, 0x34, 0x35, 0x36, 0x37, 0x38, 0x39]) (holding []) = some (.checksum 0x4B37, []) := by
  decide +kernel

/-- K3, the table. -/
theorem test_crc16_small :
    [[], [0x00], [0x01], [0xFF], [0xAA], [0x55], [0x00, 0x00], [0xFF, 0xFF], [0x01, 0x03, 0x00, 0x00, 0x00, 0x0A]].map
        crc16 =
      [0xFFFF, 0x40BF, 0x807E, 0x00FF, 0x3F3F, 0x7F7F, 0xB001, 0x0000, 0xCDC5] := by decide +kernel

/-- A2, the fifteenth PUSH. -/
theorem test_push_last : seen (.push 0x55) (holding (f1.take 14)) = some (.outcomes [.decoded packet1], []) := by
  decide +kernel

/-- A8, the first rejection: 7 bytes stay, waiting for the inner candidate. -/
theorem test_push_rescan :
    seen (.push 0x55) (holding [0xAA, 0x05, 0x90, 0x10, 0x00, 0x00, 0x00, 0x10, 0xAA, 0x40, 0x00, 0x01, 0xDC, 0x96])
      = some (.outcomes [.rejected .crcMismatch
          [0xAA, 0x05, 0x90, 0x10, 0x00, 0x00, 0x00, 0x10, 0xAA, 0x40, 0x00, 0x01, 0xDC, 0x96, 0x55]],
        [0xAA, 0x40, 0x00, 0x01, 0xDC, 0x96, 0x55]) := by decide +kernel

/-- A7: three outcomes, the raw bytes overlap. -/
theorem test_feed_A7 :
    seen (.feed ((f1.set 8 0xAA).set 9 0x00 ++ f2)) (holding [])
      = some (.outcomes [.rejected .crcMismatch ((f1.set 8 0xAA).set 9 0x00),
          .rejected .badTail [0xAA, 0x00, 0x00, 0x01, 0xDC, 0x96, 0x55, 0xAA, 0x05, 0x90], .decoded packet2], []) := by
  decide +kernel

/-- A11: the truncated frame is consumed whole; with noise in front (A4) and the start of the next frame behind (A12). -/
theorem test_feed_A11 :
    seen (.feed ([0x00, 0x55, 0x13] ++ truncated ++ f2 ++ [0xAA, 0x05])) (holding [])
      = some (.outcomes [.rejected .truncatedPayload truncated, .decoded packet2], [0xAA, 0x05]) := by decide +kernel

/-- G4. -/
theorem test_reset : seen .reset (holding (f1.take 9)) = some (.nothing, []) := by decide

/-- V10: tail and checksum both wrong. -/
theorem test_validate_V10 :
    seen (.validate [0xAA, 0x00, 0x00, 0x00, 0x00, 0x00, 0x00, 0x01, 0x1B, 0x54]) (holding [0xAA])
      = some (.validated (.error .badTail), [0xAA]) := by decide

/-- V1 to V9 and V13 without the error-free duplicates: the reasons in the table's order. -/
theorem test_validate_table :
    [[], [0xAA], List.replicate 9 0x00, e1, e1 ++ [0x00], e1.set 1 0x01, e1.set 0 0xAB, e1.set 9 0x54, e1.set 7 0x01,
        [0xAA, 0x04, 0x99, 0x07, 0x00, 0x00, 0x00, 0xDE, 0xAD, 0xBE, 0xEF, 0x2D, 0x87, 0x55]].map (validate config) =
      [.error .lengthMismatch, .error .lengthMismatch, .error .lengthMismatch, .ok ⟨0x00, 0, []⟩,
        .error .lengthMismatch, .error .lengthMismatch, .error .badHeader, .error .badTail, .error .crcMismatch,
        .ok ⟨0x99, 7, [0xDE, 0xAD, 0xBE, 0xEF]⟩] := by decide +kernel

/-- P1. -/
theorem test_decode_P1 :
    seen (.decode 0x10 (((e2Payload.set 21 0xFF).set 22 0xFF).set 23 0xFF)) (holding [])
      = some (.variant .status (.ok (.status 0x3FC00000 0x3E4CCCCD 0x42340000 0x41200000 1 0 0 0 0)), []) := by
  decide

/-- P3, P5: an overlong heartbeat, and one byte too few. -/
theorem test_decode_P3 :
    [[0x01, 0x02, 0x03, 0x04, 0x05, 0x06, 0x07], [0x01, 0x02, 0x03, 0x04]].map (decodePayload config 0x90) =
      [.ok (.heartbeat 0x04030201 5), .error .truncatedPayload] := by decide

/-- E3. -/
theorem test_encode_E3 :
    seen (.encode 0x30 forceFields 1000) (holding [0xAA])
      = some (.frame (.ok ([0xAA, 0x11, 0x30, 0xE8, 0x03, 0x00, 0x00] ++ e3Payload ++ [0xC0, 0x47, 0x55])), [0xAA]) := by
  decide +kernel

/-- E6, E8: the stamp wraps; a missing field is an error. -/
theorem test_encode_E6_E8 :
    encodeFrame 0x50 {} 0x100000000 = .ok [0xAA, 0x00, 0x50, 0x00, 0x00, 0x00, 0x00, 0xC0, 0x17, 0x55] ∧
      encodeFrame 0x10 { statusFields with errorCode := none } 0 = .error .missingRequiredField ∧
      encodeFrame 0x99 { raw := List.replicate 256 0 } 0 = .error .payloadTooLong := by decide +kernel

/-- 30_encoding.md R82: select code 7. -/
theorem test_reservedCmd7 : exec .reservedCmd7 (holding [0xAA]) = .refused .reservedCommand := rfl

/-- E1 arriving whole (G1, step 5). -/
theorem test_handshake :
    seen (.handshake 1000 [] 0xBBC5 0x55) (holding []) = some (.outcomes [.decoded ⟨.handshake, 1000, .raw []⟩], []) := by
  decide +kernel

/-- E2 arriving whole. -/
theorem test_status :
    seen (.status 0 e2Payload 0x266F 0x55) (holding [])
      = some (.outcomes [.decoded ⟨.status, 0,
          .status 0x3FC00000 0x3E4CCCCD 0x42340000 0x41200000 1 0 0 0 0⟩], []) := by decide +kernel

/-- R144, R127: a wrong checksum. The frame is written out by hand. -/
theorem test_alert :
    seen (.alert 0 [] 0 0x55) (holding [])
      = some (.outcomes [.rejected .crcMismatch [0xAA, 0x00, 0x20, 0x00, 0x00, 0x00, 0x00, 0x00, 0x00, 0x55]], []) := by
  decide +kernel

/-- R143, R127: a wrong tail. -/
theorem test_complete :
    seen (.complete 0 [] 0 0x54) (holding [])
      = some (.outcomes [.rejected .badTail [0xAA, 0x00, 0x21, 0x00, 0x00, 0x00, 0x00, 0x00, 0x00, 0x54]], []) := by
  decide

/-- G5, step 3, as a whole frame. -/
theorem test_forceControl :
    seen (.forceControl 1000 e3Payload 0x47C0 0x55) (holding [])
      = some (.outcomes [.decoded ⟨.forceControl, 1000,
          .forceControl 1 0x40200000 0x3F000000 0x40A00000 0x00000000⟩], []) := by decide +kernel

/-- R143, R127. -/
theorem test_positionControl :
    seen (.positionControl 0 [] 0 0x00) (holding [])
      = some (.outcomes [.rejected .badTail [0xAA, 0x00, 0x31, 0x00, 0x00, 0x00, 0x00, 0x00, 0x00, 0x00]], []) := by
  decide

/-- R124, 70_reset_and_hazards.md R215: bytes already held come first, and the frame is payload of what they declare. -/
theorem test_hybridControl :
    seen (.hybridControl 0 [] 0 0x55) (holding [0xAA, 0xFF])
      = some (.outcomes [], [0xAA, 0xFF, 0xAA, 0x00, 0x32, 0x00, 0x00, 0x00, 0x00, 0x00, 0x00, 0x55]) := by
  decide

/-- R127: the rescan finds a header inside the rejected frame and waits on it. -/
theorem test_parameterSet :
    seen (.parameterSet 0 [0xAA] 0 0x00) (holding [])
      = some (.outcomes [.rejected .badTail [0xAA, 0x01, 0x40, 0x00, 0x00, 0x00, 0x00, 0xAA, 0x00, 0x00, 0x00]],
          [0xAA, 0x00, 0x00, 0x00]) := by decide

/-- E6 arriving whole. -/
theorem test_emergencyStop :
    seen (.emergencyStop 0xFFFFFFFF [] 0x83C1 0x55) (holding [])
      = some (.outcomes [.decoded ⟨.emergencyStop, 0xFFFFFFFF, .raw []⟩], []) := by decide +kernel

/-- R144, R127. -/
theorem test_response :
    seen (.response 0 [] 0 0x55) (holding [])
      = some (.outcomes [.rejected .crcMismatch [0xAA, 0x00, 0x80, 0x00, 0x00, 0x00, 0x00, 0x00, 0x00, 0x55]], []) := by
  decide +kernel

/-- G4 without RESET: stale bytes are stitched to the frame, which survives. -/
theorem test_heartbeat :
    seen (.heartbeat 0x20 [0x20, 0x00, 0x00, 0x00, 0x02] 0x9288 0x55) (holding (f1.take 9))
      = some (.outcomes [.rejected .badTail
          [0xAA, 0x05, 0x90, 0x10, 0x00, 0x00, 0x00, 0x10, 0x00, 0xAA, 0x05, 0x90, 0x20, 0x00, 0x00],
          .decoded packet2], []) := by decide +kernel

/-- A9. -/
theorem test_unknown :
    seen (.unknown 0x99 7 [0xDE, 0xAD, 0xBE, 0xEF] 0x872D 0x55) (holding [])
      = some (.outcomes [.decoded ⟨.unknown 0x99, 7, .raw [0xDE, 0xAD, 0xBE, 0xEF]⟩], []) := by decide +kernel

/-- 10_state.md R33: the second of two instances takes a step; the first keeps its bytes. -/
theorem test_instances :
    stepInstance [holding [0xAA], { holding [0xAA, 0x00] with port := [.command { cmd := 3 }] }] ⟨1, by decide⟩
      = .next [holding [0xAA], holding []] := rfl

/-! ### The hypotheses of the statements can be met, clause by clause -/

/-- OneChangedByteChangesTheChecksum. -/
theorem test_hyp_one_changed_byte : (0x00 : Byte) ≠ 0x80 := by decide

/-- ValidateReportsTheFirstFailingCheck: sizes 9, 10, 11 and 265 at the clauses' borders, and each reason. -/
theorem test_hyp_validate :
    (List.replicate 9 (0 : Byte)).length < 10 ∧
      (e1 ++ [0]).length ≠ 10 + (at' (e1 ++ [0]) 1).toNat ∧
      (e1.length = 10 + (at' e1 1).toNat ∧ at' e1 0 = 0xAA ∧ at' e1 9 = 0x55) ∧
      (at' (e1.set 0 0xAB) 0 ≠ 0xAA ∧ (e1.set 0 0xAB).length = 10 + (at' (e1.set 0 0xAB) 1).toNat) ∧
      (at' (e1.set 9 0x54) 0 = 0xAA ∧ at' (e1.set 9 0x54) 9 ≠ 0x55) ∧
      (0xAA :: 0xFF :: List.replicate 263 (0 : Byte)).length
        = 10 + (at' (0xAA :: 0xFF :: List.replicate 263 (0 : Byte)) 1).toNat := by decide +kernel

/-- The last two clauses: the checksum is right in `e1`, wrong in V9. -/
theorem test_hyp_validate_crc :
    (at' e1 7).toNat + 256 * (at' e1 8).toNat = Reference.crc 0xFFFF ((e1.drop 1).take 6) ∧
      (at' (e1.set 7 1) 7).toNat + 256 * (at' (e1.set 7 1) 8).toNat
        ≠ Reference.crc 0xFFFF (((e1.set 7 1).drop 1).take 6) := by decide +kernel

/-- ValidateAcceptsExactlyTheBuiltFrames: both sides hold of `e1`. -/
theorem test_hyp_validate_accepts :
    e1 = Reference.frame 0x00 (0 : U32).toNat [] ∧ validate config e1 = .ok ⟨0x00, 0, []⟩ := by decide +kernel

/-- ValidateDetectsOneChangedByte: places 0, 1, 2, the last before the tail, the tail. -/
theorem test_hyp_validate_detects :
    validate config e1 = .ok ⟨0x00, 0, []⟩ ∧ ∀ i ∈ [0, 1, 2, 8, 9], i < e1.length ∧ (0x77 : Byte) ≠ at' e1 i := by
  decide +kernel

/-- DecodeIsTruncatedExactlyBelowTheMinimum, at each border (P5). -/
theorem test_hyp_decode_lengths :
    (List.replicate 23 (0 : Byte)).length < Reference.minLen 0x10 ∧ (List.replicate 16 (0 : Byte)).length < Reference.minLen 0x30 ∧
      (List.replicate 4 (0 : Byte)).length < Reference.minLen 0x90 ∧ Reference.minLen 0x10 ≤ (List.replicate 24 (0 : Byte)).length ∧
      Reference.minLen 0x30 ≤ (List.replicate 17 (0 : Byte)).length ∧ Reference.minLen 0x90 ≤ (List.replicate 5 (0 : Byte)).length ∧
      Reference.minLen 0x99 ≤ ([] : List Byte).length := by decide

/-- DecodeOfUnknownCodesIsRaw and DecodeOfNamedKindsWithoutALayoutIsRaw. -/
theorem test_hyp_decode_raw :
    (0x99 : Byte) ∉ ([0x00, 0x10, 0x20, 0x21, 0x30, 0x31, 0x32, 0x40, 0x50, 0x80, 0x90] : List Byte) ∧
      ((0x31 : Byte), PacketKind.positionControl) ∈ [((0x00 : Byte), PacketKind.handshake), (0x31, .positionControl)] := by
  decide

/-- ReencodingGivesBackExactPayloads: an exact payload, and one with a reserved byte set. -/
theorem test_hyp_reencode :
    (e2Payload.length ≤ 255 ∧ ∃ v, decodePayload config 0x10 e2Payload = .ok v) ∧ ExactPayload 0x10 e2Payload ∧
      (∃ v, decodePayload config 0x10 (e2Payload.set 21 1) = .ok v) ∧ ¬ ExactPayload 0x10 (e2Payload.set 21 1) := by
  refine ⟨⟨by decide, _, rfl⟩, ?_, ⟨_, rfl⟩, ?_⟩ <;> unfold ExactPayload <;> decide

/-- EncodeBuildsTheStatusFrame. -/
theorem test_hyp_encode_status :
    statusFields.forceValue = some 0x3FC00000 ∧ statusFields.forceRate = some 0x3E4CCCCD ∧
      statusFields.position = some 0x42340000 ∧ statusFields.velocity = some 0x41200000 ∧
      statusFields.motorEnabled = some 1 ∧ statusFields.positionReached = some 0 ∧ statusFields.stallDetected = some 0 ∧
      statusFields.emergencyStop = some 0 ∧ statusFields.errorCode = some 0 := by decide

/-- EncodeBuildsTheForceControlFrame, the defaults absent and present. -/
theorem test_hyp_encode_force :
    (forceFields.mode = some 1 ∧ forceFields.targetForce = some 0x40200000 ∧ forceFields.forceRate = some 0x3F000000 ∧
        forceFields.maxForce = none ∧ forceFields.holdTime = none) ∧
      { forceFields with maxForce := some 0x40F00000, holdTime := some 0x40400000 }.mode = some 1 := by decide

/-- EncodeBuildsTheHeartbeatFrame. -/
theorem test_hyp_encode_heartbeat :
    ({ timestamp := some 0x1E240, status := some 1 } : Fields).timestamp = some 0x1E240 ∧
      ({ timestamp := some 0x1E240, status := some 1 } : Fields).status = some 1 := by decide

/-- EncodeFramesRawBytesUnchanged: 255 bytes and 256. -/
theorem test_hyp_encode_raw :
    ((0x99 : Byte) ≠ 0x10 ∧ (0x99 : Byte) ≠ 0x30 ∧ (0x99 : Byte) ≠ 0x90) ∧
      ({ raw := List.replicate 255 0 } : Fields).raw.length ≤ 255 ∧
      ¬ ({ raw := List.replicate 256 0 } : Fields).raw.length ≤ 255 := by decide +kernel

/-- EncodeFailsExactlyOnAMissingRequiredField: for each layout a full record and one without its last required field. -/
theorem test_hyp_encode_missing :
    (FieldsPresent 0x10 statusFields ∧ ¬ FieldsPresent 0x10 { statusFields with errorCode := none }) ∧
      (FieldsPresent 0x30 forceFields ∧ ¬ FieldsPresent 0x30 { forceFields with forceRate := none }) ∧
      (FieldsPresent 0x90 { timestamp := some 1, status := some 1 } ∧ ¬ FieldsPresent 0x90 { status := some 1 }) := by
  refine ⟨⟨?_, ?_⟩, ⟨?_, ?_⟩, ⟨?_, ?_⟩⟩ <;> unfold FieldsPresent <;> decide

/-- FeedDecodesWhatEncodeBuilds: ENCODE of F1's fields on an empty buffer answers a frame. -/
theorem test_hyp_feed_of_encode :
    exec (.encode 0x90 { timestamp := some 0x10, status := some 1 } 0x10) (holding [])
        = .next { holding [] with returned := .frame (.ok f1) } ∧
      ({ holding [] with returned := .frame (.ok f1) } : State).buf = [] :=
  ⟨by
    show Host.Outcome.next _ = _
    have h : encodeFrame 0x90 { timestamp := some 0x10, status := some 1 } 0x10 = .ok f1 := by decide +kernel
    rw [h]; rfl, rfl⟩

/-- BytesBeforeAHeaderLeaveNoTrace (A4): noise and the start of a frame; noise only. -/
theorem test_hyp_noise :
    NoHeader [0x00, 0x55, 0x13] ∧ (holding [0x00, 0x55]).buf ++ [0x13, 0xAA] = [0x00, 0x55, 0x13] ++ [0xAA] ∧
      (holding []).buf ++ [0x00, 0x55, 0x13] = [0x00, 0x55, 0x13] ++ [] := by
  unfold NoHeader; decide

/-- FeedWaitsForTheFullCandidate: one byte; nine bytes with length 0; 264 with length 255; F1 without its last byte. -/
theorem test_hyp_feed_waits :
    IsPartial ((holding []).buf ++ [0xAA]) ∧ IsPartial ((holding (e1.take 8)).buf ++ [0x1B]) ∧
      IsPartial ((holding [0xAA]).buf ++ 0xFF :: List.replicate 262 0) ∧
      (holding (f1.take 14)).buf = (Reference.frame 0x90 0x10 [0x10, 0x00, 0x00, 0x00, 0x01]).dropLast := by
  unfold IsPartial; decide +kernel

/-- FeedEmitsAnAcceptedFrameAndGoesOnBehindIt: F1 over two chunks, F2 behind it. -/
theorem test_hyp_feed_emits :
    (holding (f1.take 3)).buf ++ (f1.drop 3 ++ f2) = f1 ++ f2 ∧ IsCandidate f1 ∧
      validate config f1 = .ok ⟨0x90, 0x10, [0x10, 0x00, 0x00, 0x00, 0x01]⟩ ∧
      decodePayload config 0x90 [0x10, 0x00, 0x00, 0x00, 0x01] = .ok (.heartbeat 0x10 1) := by
  refine ⟨rfl, ?_, ?_, ?_⟩
  · unfold IsCandidate; decide
  · decide +kernel
  · decide

/-- FeedRejectsAndRescansFromTheNextByte: A5. -/
theorem test_hyp_feed_rejects :
    (holding []).buf ++ (f1.set 7 0x11 ++ f2) = f1.set 7 0x11 ++ f2 ∧ IsCandidate (f1.set 7 0x11) ∧
      validate config (f1.set 7 0x11) = .error .crcMismatch := by
  refine ⟨rfl, ?_, ?_⟩
  · unfold IsCandidate; decide
  · decide +kernel

/-- FeedConsumesATruncatedPayloadWhole: A11, and STATUS with 23 bytes. -/
theorem test_hyp_feed_truncated :
    (holding []).buf ++ (truncated ++ f2) = Reference.frame 0x90 5 [1, 2, 3] ++ f2 ∧
      ([1, 2, 3] : List Byte).length < Reference.minLen 0x90 ∧ (List.replicate 23 (0 : Byte)).length < Reference.minLen 0x10 := by
  decide +kernel

/-- FeedIsOnePushPerByte, PushKeepsAByteOrJudgesTheFrontCandidate: at rest, and each case of the byte. -/
theorem test_hyp_push :
    (Safe (holding []) ∧ (0x13 : Byte) ≠ 0xAA) ∧ (Safe (holding [0xAA]) ∧ IsPartial [0xAA, 0xFF]) ∧
      (Safe (holding (f1.take 14)) ∧ IsCandidate (f1.take 14 ++ [0x55])) ∧
      (Safe (holding (truncated.take 12)) ∧ IsCandidate (truncated.take 12 ++ [0x55])) ∧
      (Safe (holding (e1.take 9)) ∧ IsCandidate (e1.take 9 ++ [0x54])) := by
  refine ⟨⟨rfl, by decide⟩, ⟨rfl, ?_⟩, ⟨rfl, ?_⟩, ⟨rfl, ?_⟩, ⟨rfl, ?_⟩⟩
  · unfold IsPartial; decide
  all_goals unfold IsCandidate; decide

/-- The same, the verdicts: accepted, truncated, refused. -/
theorem test_hyp_push_verdicts :
    (∃ v f, validate config (f1.take 14 ++ [0x55]) = .ok v ∧ decodePayload config v.type v.payload = .ok f) ∧
      (∃ v e, validate config (truncated.take 12 ++ [0x55]) = .ok v ∧ decodePayload config v.type v.payload = .error e) ∧
      ∃ e, validate config (e1.take 9 ++ [0x54]) = .error e := by
  refine ⟨⟨⟨0x90, 0x10, [0x10, 0x00, 0x00, 0x00, 0x01]⟩, .heartbeat 0x10 1, ?_⟩,
    ⟨⟨0x90, 5, [1, 2, 3]⟩, .truncatedPayload, ?_⟩, ⟨.badTail, ?_⟩⟩ <;> decide +kernel

/-- PhaseAdvancesByteByByte: at-rest buffers of every length a clause names, with length byte 0, 1 and 5. -/
theorem test_hyp_phase :
    (∀ n ∈ List.range 15, Safe (holding (f1.take n))) ∧ (∀ n ∈ List.range 10, Safe (holding (e1.take n))) ∧
      (∀ n ∈ List.range 11, Safe (holding ([0xAA, 0x01, 0x99, 0, 0, 0, 0, 7, 0, 0, 0].take n))) := by
  unfold Safe; decide

/-- FeedRejectsOnlyForTailChecksumOrTruncation: a FEED with a rejection. -/
theorem test_hyp_feed_reason :
    seen (.feed (e1.set 9 0x54)) (holding []) = some (.outcomes [.rejected .badTail (e1.set 9 0x54)], []) ∧
      .rejected .badTail (e1.set 9 0x54) ∈ [FeedOutcome.rejected .badTail (e1.set 9 0x54)] := by decide

/-- OutcomesAreAtMostTheHeaderBytes: the second clause on a safe state with 14 bytes (`test_push_last` is its step). -/
theorem test_hyp_outcomes : Safe (holding (f1.take 14)) ∧ (f1.count 0xAA) = 1 := by
  refine ⟨rfl, by decide⟩

/-- AStreamOfGoodFramesDecodesInOrder: two frames, one behind noise and one with 255 bytes of payload. -/
theorem test_hyp_stream :
    ∀ x ∈ [(([0x00, 0x55, 0x13] : List Byte), (0x90 : Byte), 0x10, ([0x10, 0x00, 0x00, 0x00, 0x01] : List Byte)),
        ([], 0x40, 0x100000000, List.replicate 255 0xAA)],
      NoHeader x.1 ∧ x.2.2.2.length ≤ 255 ∧ Reference.minLen x.2.1 ≤ x.2.2.2.length := by
  unfold NoHeader; decide +kernel

/-- ResyncAfterOneCorruptedByte: A5, and the borders of the place (the type byte, the last payload byte). -/
theorem test_hyp_resync :
    Reference.frame 0x90 0x10 [0x10, 0x00, 0x00, 0x00, 0x01] = f1 ∧ (∀ i ∈ [2, 7, 11], 2 ≤ i ∧ i < 7 + 5 ∧
      (0x11 : Byte) ≠ at' f1 i ∧ NoHeader ((f1.set i 0x11).drop 1)) ∧
        Reference.minLen 0x90 ≤ ([0x20, 0x00, 0x00, 0x00, 0x02] : List Byte).length := by
  unfold NoHeader; decide +kernel

/-- The FRAME rows: an empty buffer, payload lengths at the borders, an unnamed code. -/
theorem test_hyp_frame_rows :
    (holding []).buf = [] ∧ (List.replicate 255 (0 : Byte)).length ≤ 255 ∧ 24 ≤ e2Payload.length ∧ 17 ≤ e3Payload.length ∧
      5 ≤ ([0x10, 0x00, 0x00, 0x00, 0x01] : List Byte).length ∧
      (0x99 : Byte) ∉ ([0x00, 0x10, 0x20, 0x21, 0x30, 0x31, 0x32, 0x40, 0x50, 0x80, 0x90] : List Byte) := by decide +kernel

/-- FrameRowsRejectAWrongTailOrChecksum: a wrong tail with the right checksum, and a wrong checksum with the right tail. -/
theorem test_hyp_frame_rejects :
    ((0x54 : Byte) ≠ 0x55 ∧ (0x1B00 : U16) = Reference.checksum (Reference.body 0x00 (0 : U32).toNat [])) ∧
      (0x1B01 : U16) ≠ Reference.checksum (Reference.body 0x00 (0 : U32).toNat []) := by decide +kernel

/-- ResetErasesWhatWasFed, PureOperations…, ReceivingOnly…, EveryOperationCompletes…: instructions of each class. -/
theorem test_hyp_classes :
    isPure (.crc16 []) = true ∧ isPure (.encode 0x99 {} 0) = true ∧ isReceiving (.push 0) = true ∧
      isReceiving (.unknown 0x99 0 [] 0 0) = true ∧ isReceiving .reset = false ∧ Instr.reset ≠ .reservedCmd7 := by decide

/-- EveryStepKeepsTheAtRestForm, AStepRunsTheOldestCall, EncodeOfADecodedFrame…: a safe state with a well-formed call at the
port, and its step. -/
theorem test_hyp_step :
    Safe { holding (f1.take 9) with port := [encode .reset] } ∧ WellFormed .reset = true ∧
      step { holding (f1.take 9) with port := [encode .reset] } = .next (holding []) ∧
      decodeFrame e1 = .ok (.handshake 0 [] 0x1B00 0x55) := ⟨rfl, rfl, rfl, rfl⟩

/-- ReachableBuffersHoldAtMost264Bytes: a state that holds bytes is reached. -/
theorem test_hyp_reachable : Reachable { holding [0xAA] with returned := .outcomes [] } :=
  .stepped (.posted (.command { cmd := 1, b := 0xAA }) .created) rfl

/-- FeedLeavesAnAtRestBufferForAnyConfig: an at-rest buffer. -/
theorem test_hyp_atRest : atRest (f1.take 14) = true := by decide

/-- TheReservedSelectCodeIsRefused. -/
theorem test_hyp_reserved : ({ cmd := 0b111 } : Request).cmd = 7 := by decide

/-- EncodeOfADecodedFrameIsItsBytes, second clause, at both ends of the length byte. -/
theorem test_hyp_candidate : IsCandidate e1 ∧ IsCandidate (0xAA :: 0xFF :: List.replicate 263 0) := by
  unfold IsCandidate; decide +kernel

end Sys2Proof.Tests
end

/-! PROOFS. The encoding family (30_encoding.md): the frame of the reference definitions is the frame the machine builds,
and VALIDATE accepts exactly that frame. -/

namespace Sys2Proof

open Sys2Proof.Machine Sys2Proof.Reference

/-! ### The checksum on natural numbers (40_checksum.md R90 to R92) -/

/-- The parity of the register decides both sides. -/
theorem crcBit_toNat (r : U16) : (crcBit r).toNat = crcIteration r.toNat := by
  rcases Nat.mod_two_eq_zero_or_one r.toNat with heven | hodd
  · simp [crcBit_even heven, crcIteration, heven]
  · simp [crcBit_odd hodd, crcIteration, hodd]

theorem crcByte_toNat (r : U16) (b : Byte) : (crcByte r b).toNat = crcIteration^[8] (r.toNat ^^^ b.toNat) := by
  have hb : (b.zeroExtend 16).toNat = b.toNat := by simp; omega
  simp [crcByte, crcBit_toNat, hb]

theorem crc_cons (r : Nat) (b : Byte) (rest : List Byte) :
    Reference.crc r (b :: rest) = Reference.crc (crcIteration^[8] (r ^^^ b.toNat)) rest := rfl

theorem foldl_crcByte_toNat (data : List Byte) (r : U16) : (data.foldl crcByte r).toNat = Reference.crc r.toNat data := by
  induction data generalizing r with
  | nil => rfl
  | cons b rest ih =>
    calc (rest.foldl crcByte (crcByte r b)).toNat
        = Reference.crc (crcByte r b).toNat rest := ih _
      _ = Reference.crc r.toNat (b :: rest) := by rw [crcByte_toNat, crc_cons]

/-- The machine's checksum is the register of the algorithm run on natural numbers. -/
theorem crc16_toNat (data : List Byte) : (crc16 data).toNat = Reference.crc 0xFFFF data :=
  foldl_crcByte_toNat data crcInit

/-! ### The frame on natural numbers (30_encoding.md R60, R66) -/

theorem bytes2_toNat (v : U16) : bytes2 v.toNat = bytesLe16 v := by
  simp [bytes2, bytesLe16, extractLsb'_eq_div]

theorem bytes4_toNat (v : U32) : bytes4 v.toNat = bytesLe32 v := by
  simp [bytes4, bytesLe32, extractLsb'_eq_div]

theorem body_toNat (code : Byte) (ts : U32) (p : List Byte) : body code ts.toNat p = frameBody code ts p := by
  rw [body, Nat.mod_eq_of_lt ts.isLt, bytes4_toNat, frameBody]
  rfl

/-- The reference's frame of a 32-bit timestamp is the frame ENCODE builds (44_facade.md R153). -/
theorem frame_toNat (code : Byte) (ts : U32) (p : List Byte) : frame code ts.toNat p = buildFrame code ts p := by
  rw [frame, body_toNat, ← crc16_toNat, bytes2_toNat, buildFrame, frameBytes]
  rfl

/-! ### VALIDATE (43_frame_validator.md R140 to R145) -/

/-- Soundness is `validate_ok_built`, completeness `validate_buildFrame`. -/
theorem validate_eq_ok_iff (cfg : Config) (r : List Byte) (v : Validated) :
    validate cfg r = .ok v ↔ v.payload.length ≤ 255 ∧ r = buildFrame v.type v.timestamp v.payload := by
  constructor
  · exact validate_ok_built
  · rintro ⟨hlen, rfl⟩
    exact validate_buildFrame cfg v.type v.timestamp v.payload hlen

/-- What VALIDATE answers is what the Validator says. -/
theorem exec_validate_answers_iff (r : List Byte) (v : Except RejectReason Validated) (s : State) :
    exec (.validate r) s = .next (answers s (.validated v)) ↔ validate config r = v := by
  simp [exec, execValidate, State.ret, answers]

/-- Settles O6: the range is accepted exactly when it is what `buildFrame` makes of the fields (`validate_eq_ok_iff`), and
that is the frame of the reference definitions (`frame_toNat`). -/
theorem validateAcceptsExactlyTheBuiltFrames : Obligations.ValidateAcceptsExactlyTheBuiltFrames := by
  intro r code ts p s
  rw [exec_validate_answers_iff, validate_eq_ok_iff, frame_toNat]

end Sys2Proof

/-! PROOFS. The checksum family (40_checksum.md): data followed by its own checksum, and the operations that touch no
buffer. -/

namespace Sys2Proof

open Sys2Proof.Machine Sys2Proof.Reference

/-! ### What the pure operations answer (40 R94, 41 R100, 43 R140, 44 R156) -/

theorem exec_crc16 (data : List Byte) (s : State) :
    exec (.crc16 data) s = .next (answers s (.checksum (crc16 data))) := rfl

theorem exec_validate (r : List Byte) (s : State) :
    exec (.validate r) s = .next (answers s (.validated (validate config r))) := rfl

theorem exec_decode (code : Byte) (p : List Byte) (s : State) :
    exec (.decode code p) s = .next (answers s (.variant (kindOf code) (decodePayload config code p))) := rfl

theorem exec_encode (code : Byte) (f : Fields) (nowMs : Nat) (s : State) :
    exec (.encode code f nowMs) s = .next (answers s (.frame (encodeFrame code f nowMs))) := rfl

/-- Settles O46: what each of the four operations answers is written without the state. -/
theorem pureOperationsNeitherReadNorWriteTheBuffer : Obligations.PureOperationsNeitherReadNorWriteTheBuffer := by
  intro i s hpure
  cases i with
  | crc16 data => exact ⟨_, exec_crc16 data s, exec_crc16 data⟩
  | validate r => exact ⟨_, exec_validate r s, exec_validate r⟩
  | decode code p => exact ⟨_, exec_decode code p s, exec_decode code p⟩
  | encode code f nowMs => exact ⟨_, exec_encode code f nowMs s, exec_encode code f nowMs⟩
  | _ => cases hpure

/-! ### Data followed by its own checksum (40 R90, 95 K3) -/

/-- An iteration of an even register only shifts. -/
theorem crcIteration_two_mul (n : Nat) : crcIteration (2 * n) = n := by
  simp [crcIteration]

/-- As long as zeros leave at the low end the polynomial never enters. -/
theorem crcIteration_iterate_two_pow_mul (k n : Nat) : crcIteration^[k] (2 ^ k * n) = n := by
  induction k with
  | zero => simp
  | succ k ih =>
    rw [Function.iterate_succ_apply, show 2 ^ (k + 1) * n = 2 * (2 ^ k * n) by ring, crcIteration_two_mul, ih]

/-- Exclusive-or with its own low byte clears a register's low byte. -/
theorem xor_low_byte (r : Nat) : r ^^^ r % 2 ^ 8 = 2 ^ 8 * (r / 2 ^ 8) := by
  have hlow : (r ^^^ r % 2 ^ 8) % 2 ^ 8 = 0 := by rw [Nat.xor_mod_two_pow, Nat.mod_mod, Nat.xor_self]
  have hhigh : (r ^^^ r % 2 ^ 8) / 2 ^ 8 = r / 2 ^ 8 := by
    rw [Nat.xor_div_two_pow, Nat.div_eq_of_lt (Nat.mod_lt r (by decide)), Nat.xor_zero]
  rw [← Nat.div_add_mod (r ^^^ r % 2 ^ 8) (2 ^ 8), hlow, hhigh, Nat.add_zero]

theorem crc_nil (r : Nat) : Reference.crc r [] = r := rfl

/-- A register run over its own two bytes, low byte first: the low byte shifts the high one down, and the high byte then
cancels it. -/
theorem crc_bytes2_self {r : Nat} (hr : r < 2 ^ 16) : Reference.crc r (bytes2 r) = 0 := by
  have hlow : crcIteration^[8] (r ^^^ (BitVec.ofNat 8 r).toNat) = r / 2 ^ 8 := by
    rw [BitVec.toNat_ofNat, xor_low_byte, crcIteration_iterate_two_pow_mul]
  have hhigh : (BitVec.ofNat 8 (r / 0x100)).toNat = r / 2 ^ 8 := by
    rw [BitVec.toNat_ofNat]; omega
  calc Reference.crc r (bytes2 r)
      = crcIteration^[8] (r / 2 ^ 8 ^^^ r / 2 ^ 8) := by rw [bytes2, crc_cons, hlow, crc_cons, hhigh, crc_nil]
    _ = crcIteration^[8] (2 ^ 8 * 0) := by rw [Nat.xor_self, Nat.mul_zero]
    _ = 0 := crcIteration_iterate_two_pow_mul 8 0

theorem crc16_append_checksum (data : List Byte) : crc16 (data ++ bytes2 (Reference.crc 0xFFFF data)) = 0 := by
  apply BitVec.eq_of_toNat_eq
  rw [crc16_append, foldl_crcByte_toNat, ← crc16_toNat, crc_bytes2_self (crc16 data).isLt]
  rfl

/-- Settles O4: the checksum is the register after the data, and its own two bytes take that register to 0
(`crc_bytes2_self`). -/
theorem dataFollowedByItsChecksumHasChecksumZero : Obligations.DataFollowedByItsChecksumHasChecksumZero := by
  intro data s
  rw [exec_crc16, crc16_append_checksum]

end Sys2Proof

/-! PROOFS. The payload codec family (41_payload_codec.md): what DECODE answers for every code and payload, in the words
of the reference definitions. -/

namespace Sys2Proof

open Sys2Proof.Machine Sys2Proof.Reference

/-! ### The reference's bytes and words (20_memory.md R43) -/

theorem at'_eq_byteAt (p : List Byte) (i : Nat) : at' p i = byteAt p i := by
  rw [at', byteAt, List.getD_eq_getElem?_getD]

/-- The concatenation of four bytes is the word the machine assembles by shifts. -/
theorem word_eq_le32 (p : List Byte) (i : Nat) : word p i = le32 p i := by
  simp only [word, at'_eq_byteAt, le32_eq_append]

/-! ### The reference's layouts (41 R102 to R107) -/

theorem variant_status (p : List Byte) : variant 0x10 p = decodeStatus p := by
  simp [variant, decodeStatus, word_eq_le32, at'_eq_byteAt]

theorem variant_force (p : List Byte) : variant 0x30 p = decodeForceControl p := by
  simp [variant, decodeForceControl, word_eq_le32, at'_eq_byteAt]

theorem variant_heartbeat (p : List Byte) : variant 0x90 p = decodeHeartbeat p := by
  simp [variant, decodeHeartbeat, word_eq_le32, at'_eq_byteAt]

theorem variant_raw {code : Byte} (p : List Byte) (h1 : code ≠ 0x10) (h2 : code ≠ 0x30) (h3 : code ≠ 0x90) :
    variant code p = .raw p := by
  rw [variant, if_neg h1, if_neg h2, if_neg h3]

theorem minLen_raw {code : Byte} (h1 : code ≠ 0x10) (h2 : code ≠ 0x30) (h3 : code ≠ 0x90) : minLen code = 0 := by
  rw [minLen, if_neg h1, if_neg h2, if_neg h3]

/-- `MINLEN` is the size of the code's layout. -/
theorem layoutSize_eq_minLen (code : Byte) : layoutSize (layoutOf (kindOf code)) = minLen code := by
  rcases layout_cases code with ⟨_, rfl⟩ | ⟨_, rfl⟩ | ⟨_, rfl⟩ | ⟨hraw, h1, h2, h3⟩
  · rfl
  · rfl
  · rfl
  · rw [hraw, minLen_raw h1 h2 h3]; rfl

/-- A code outside the type-code map keeps its number in its kind (30_encoding.md R71, 41 R101). -/
theorem kindOf_unnamed {code : Byte}
    (h : code ∉ ([0x00, 0x10, 0x20, 0x21, 0x30, 0x31, 0x32, 0x40, 0x50, 0x80, 0x90] : List Byte)) :
    kindOf code = .unknown code := by
  simp only [List.mem_cons, List.not_mem_nil, or_false, not_or] at h
  simp_all [kindOf]

/-! ### DECODE (41 R100) -/

/-- A payload of at least the minimum length decodes to the reference's variant, layout by layout. -/
theorem decodePayload_of_minLen_le {code : Byte} {p : List Byte} (h : minLen code ≤ p.length) :
    decodePayload config code p = .ok (variant code p) := by
  rw [decodePayload_full (layoutSize_eq_minLen code ▸ h)]
  rcases layout_cases code with ⟨_, rfl⟩ | ⟨_, rfl⟩ | ⟨_, rfl⟩ | ⟨hraw, h1, h2, h3⟩
  · rw [variant_status]; rfl
  · rw [variant_force]; rfl
  · rw [variant_heartbeat]; rfl
  · rw [variant_raw p h1 h2 h3, hraw]

/-- What DECODE says of any payload: the length decides between the error and the fields. -/
theorem decodePayload_eq (code : Byte) (p : List Byte) :
    decodePayload config code p =
      if p.length < minLen code then .error .truncatedPayload else .ok (variant code p) := by
  by_cases hshort : p.length < minLen code
  · rw [if_pos hshort, decodePayload_short (layoutSize_eq_minLen code ▸ hshort)]
  · rw [if_neg hshort, decodePayload_of_minLen_le (Nat.le_of_not_lt hshort)]

/-- TruncatedPayload is the only error, and the length alone decides it (R102). -/
theorem decodePayload_eq_truncated_iff (code : Byte) (p : List Byte) :
    decodePayload config code p = .error .truncatedPayload ↔ p.length < minLen code := by
  rw [decodePayload_eq]
  split <;> simp_all

/-- What DECODE answers under the code's kind is what the codec says. -/
theorem exec_decode_answers_iff (code : Byte) (p : List Byte) (v : Except RejectReason PayloadVariant) (s : State) :
    exec (.decode code p) s = .next (answers s (.variant (kindOf code) v)) ↔ decodePayload config code p = v := by
  simp [exec_decode, answers]

/-- Settles O8: DECODE answers what the codec says (`exec_decode_answers_iff`), and the codec says TruncatedPayload exactly
below the minimum length (`decodePayload_eq_truncated_iff`). -/
theorem decodeIsTruncatedExactlyBelowTheMinimum : Obligations.DecodeIsTruncatedExactlyBelowTheMinimum := by
  intro code p s
  rw [exec_decode_answers_iff, decodePayload_eq_truncated_iff]

/-- Settles O9: the three layouts are the three named cases of `minLen` and `variant`. -/
theorem decodeReadsTheThreeLayouts : Obligations.DecodeReadsTheThreeLayouts := by
  intro p s
  refine ⟨?status, ?force, ?heartbeat⟩
  case status => exact (exec_decode_answers_iff 0x10 p _ s).mpr (decodePayload_eq 0x10 p)
  case force => exact (exec_decode_answers_iff 0x30 p _ s).mpr (decodePayload_eq 0x30 p)
  case heartbeat => exact (exec_decode_answers_iff 0x90 p _ s).mpr (decodePayload_eq 0x90 p)

/-- Settles O10: an unnamed code has no layout, so its minimum length is 0 and its variant is the payload itself. -/
theorem decodeOfUnknownCodesIsRaw : Obligations.DecodeOfUnknownCodesIsRaw := by
  intro code p s hunnamed
  obtain ⟨h1, h2, h3⟩ : code ≠ 0x10 ∧ code ≠ 0x30 ∧ code ≠ 0x90 := by
    refine ⟨?_, ?_, ?_⟩ <;> rintro rfl <;> exact hunnamed (by decide)
  have hlen : minLen code ≤ p.length := minLen_raw h1 h2 h3 ▸ Nat.zero_le _
  rw [exec_decode, kindOf_unnamed hunnamed, decodePayload_of_minLen_le hlen, variant_raw p h1 h2 h3]

end Sys2Proof

/-! PROOFS. The assembler family (42_frame_assembler.md): FEED waits for the full candidate, and an accepted one is a packet
with the scan going on behind it. -/

namespace Sys2Proof

open Sys2Proof.Machine Sys2Proof.Reference

/-! ### What FEED leaves (42 R120) -/

/-- FEED leaves what the loop answers on the appended buffer. -/
theorem exec_feed (chunk : List Byte) (s : State) :
    exec (.feed chunk) s
      = .next (leaves s (resolveFrom config 0 (s.buf ++ chunk)).2 (resolveFrom config 0 (s.buf ++ chunk)).1) := rfl

/-! ### An accepted candidate (42 R126) -/

/-- The verdict on an accepted candidate advances by its whole length, so nothing of it is left to scan. -/
theorem resolveFrom_accepted {c : List Byte} {v : Validated} {f : PayloadVariant} (hv : validate config c = .ok v)
    (hf : decodePayload config v.type v.payload = .ok f) (rest : List Byte) :
    resolveFrom config 0 (c ++ rest) =
      (.decoded { kind := kindOf v.type, timestamp := v.timestamp, fields := f } :: (resolveFrom config 0 rest).1,
        (resolveFrom config 0 rest).2) := by
  have hfull : FullCandidate c := validate_ok_form hv
  rw [resolveFrom_candidate config hfull, resolve_accepted hv hf, List.drop_length, List.nil_append]

/-- Settles O22: the outcomes and the buffer of the FEED behind the tail are those of the loop on `rest`
(`resolveFrom_accepted`). -/
theorem feedEmitsAnAcceptedFrameAndGoesOnBehindIt : Obligations.FeedEmitsAnAcceptedFrameAndGoesOnBehindIt := by
  intro chunk c rest s v f hstream _ hv hf
  refine ⟨(resolveFrom config 0 rest).1, (resolveFrom config 0 rest).2, exec_feed rest { s with buf := [] }, ?_⟩
  rw [exec_feed, hstream, resolveFrom_accepted hv hf]

/-! ### A candidate that is not full (42 R123, R124) -/

/-- A candidate that is not full is a buffer at rest (10_state.md R23). -/
theorem atRest_of_isPartial {w : List Byte} (h : IsPartial w) : atRest w = true := by
  obtain ⟨h0, hlen⟩ := h
  have hheader : byteAt w 0 = header := by rw [← at'_eq_byteAt, at', h0]; rfl
  have hshort : w.length < 2 ∨ w.length < frameSize (declaredLength w) := by
    rwa [declaredLength, ← at'_eq_byteAt]
  simp only [atRest, hheader, beq_self_eq_true, Bool.true_and, Bool.or_eq_true, decide_eq_true_eq]
  exact .inr hshort

/-- A full candidate without its last byte still holds its header and length byte, and is one byte short. -/
theorem isPartial_dropLast {w : List Byte} (h : FullCandidate w) : IsPartial w.dropLast := by
  obtain ⟨h0, hsize⟩ := h
  rw [frameSize] at hsize
  have hkept (i : Nat) (hi : i < 9) : w.dropLast[i]? = w[i]? := by
    rw [List.getElem?_dropLast, if_pos (by omega)]
  have hheader : w[0]? = some 0xAA := by
    rw [List.getElem?_eq_getElem (by omega)]
    simpa [byteAt, header, List.getElem?_eq_getElem (show 0 < w.length by omega)] using h0
  have hlength : at' w.dropLast 1 = byteAt w 1 := by
    rw [← at'_eq_byteAt, at', at', hkept 1 (by omega)]
  refine ⟨(hkept 0 (by omega)).trans hheader, .inr ?_⟩
  rw [List.length_dropLast, hlength]
  omega

/-! ### The last byte of a frame (42 R124) -/

/-- The reference's frame at any time is the frame of the stamp (44_facade.md R152). -/
theorem frame_eq_buildFrame (code : Byte) (ms : Nat) (p : List Byte) :
    frame code ms p = buildFrame code (BitVec.ofNat 32 ms) p := by
  rw [← frame_toNat, frame, frame, body, body, BitVec.toNat_ofNat, Nat.mod_mod]

theorem frame_dropLast_concat_tail (code : Byte) (ms : Nat) (p : List Byte) :
    (frame code ms p).dropLast ++ [0x55] = frame code ms p := by
  rw [frame, List.dropLast_concat]

/-- The reference's frame is accepted with the fields it was built from. -/
theorem validate_frame (code : Byte) (ms : Nat) {p : List Byte} (h : p.length ≤ 255) :
    validate config (frame code ms p) = .ok { type := code, timestamp := BitVec.ofNat 32 ms, payload := p } := by
  rw [frame_eq_buildFrame, validate_buildFrame config code _ p h]

/-- Settles O21: a partial candidate is at rest, where the loop waits; a frame short of its tail is partial, and the tail
completes an accepted candidate with nothing behind it (`resolveFrom_accepted`). -/
theorem feedWaitsForTheFullCandidate : Obligations.FeedWaitsForTheFullCandidate := by
  constructor
  · intro chunk s hpartial
    rw [exec_feed, resolveFrom_atRest config (atRest_of_isPartial hpartial)]
  · intro code ms p s hfits hmin hbuf
    have hv := validate_frame code ms hfits
    have hfull : FullCandidate (frame code ms p) := validate_ok_form hv
    have hstream : s.buf ++ [0x55] = frame code ms p ++ [] := by
      rw [hbuf, frame_dropLast_concat_tail, List.append_nil]
    refine ⟨hbuf ▸ isPartial_dropLast hfull, ?_⟩
    rw [exec_feed, hstream, resolveFrom_accepted hv (decodePayload_of_minLen_le hmin)]
    rfl

end Sys2Proof

/-! PROOFS. The frame validator family (43_frame_validator.md): a changed byte shows in the checksum, VALIDATE names its
place, FEED rejects for three reasons only, and every operation completes. -/

namespace Sys2Proof

open Sys2Proof.Machine Sys2Proof.Reference

/-! ### One changed byte in the checksum (40_checksum.md R91, R92, 43 R149) -/

/-- The polynomial's top bit enters exactly when the tested bit is set, so no bit is lost. -/
theorem crcBit_top (r : U16) : (crcBit r).getLsbD 15 = r.getLsbD 0 := by
  unfold crcBit
  split <;> simp_all [crcPoly]

theorem crcBit_injective : Function.Injective crcBit := by
  intro r t h
  have hlow : r.getLsbD 0 = t.getLsbD 0 := by rw [← crcBit_top r, h, crcBit_top t]
  have hhigh : r >>> 1 = t >>> 1 := by
    rw [crcBit, crcBit, hlow] at h
    split at h
    · exact (BitVec.xor_left_inj _).mp h
    · exact h
  apply BitVec.eq_of_getLsbD_eq
  intro i _
  cases i with
  | zero => exact hlow
  | succ i => simpa [Nat.add_comm] using congrArg (·.getLsbD i) hhigh

theorem crcByte_eq_iterate (r : U16) (b : Byte) : crcByte r b = crcBit^[8] (r ^^^ b.zeroExtend 16) := rfl

theorem crcByte_left_injective (b : Byte) : Function.Injective fun r => crcByte r b := by
  intro r t h
  simp only [crcByte_eq_iterate] at h
  exact (BitVec.xor_left_inj _).mp (crcBit_injective.iterate 8 h)

theorem crcByte_right_injective (r : U16) : Function.Injective (crcByte r) := by
  intro b c h
  simp only [crcByte_eq_iterate] at h
  have hwide : b.zeroExtend 16 = c.zeroExtend 16 := (BitVec.xor_right_inj r).mp (crcBit_injective.iterate 8 h)
  simpa using congrArg (BitVec.setWidth 8) hwide

/-- Two registers that differ stay different over the same bytes. -/
theorem foldl_crcByte_injective (data : List Byte) : Function.Injective fun r => data.foldl crcByte r := by
  induction data with
  | nil => exact fun _ _ h => h
  | cons b rest ih => exact ih.comp (crcByte_left_injective b)

/-- Settles O3: the changed byte gives a different register (`crcByte_right_injective`), and the bytes behind it keep the
registers apart (`foldl_crcByte_injective`). -/
theorem oneChangedByteChangesTheChecksum : Obligations.OneChangedByteChangesTheChecksum := by
  intro before after b c hne h
  rw [crc16_append, crc16_append] at h
  exact hne (crcByte_right_injective _ (foldl_crcByte_injective after h))

/-! ### A byte string with one byte changed -/

theorem byteAt_set_self {r : List Byte} {i : Nat} (b : Byte) (hi : i < r.length) : byteAt (r.set i b) i = b := by
  simp [byteAt, hi]

theorem byteAt_set_ne (r : List Byte) {i j : Nat} (b : Byte) (h : i ≠ j) : byteAt (r.set i b) j = byteAt r j := by
  simp [byteAt, List.getElem?_set_ne h]

theorem slice_set {a i : Nat} (r : List Byte) (e : Nat) (b : Byte) (h : a ≤ i) :
    slice (r.set i b) a e = (slice r a e).set (i - a) b := by
  rw [slice, List.drop_set, if_neg (by omega), List.take_set, slice]

theorem slice_set_of_le {i e : Nat} (r : List Byte) (a : Nat) (b : Byte) (ha : a ≤ i) (he : e ≤ i) :
    slice (r.set i b) a e = slice r a e := by
  rw [slice_set r e b ha, List.set_eq_of_length_le (by simp [slice]; omega)]

theorem byteAt_slice {a e i : Nat} (r : List Byte) (h : i < e - a) : byteAt (slice r a e) i = byteAt r (a + i) := by
  simp [byteAt, slice, h]

/-- A 16-bit field is its two bytes. -/
theorem le16_eq_iff (r t : List Byte) (k : Nat) :
    le16 r k = le16 t k ↔ byteAt r k = byteAt t k ∧ byteAt r (k + 1) = byteAt t (k + 1) := by
  constructor
  · intro h
    have hbytes := congrArg bytesLe16 h
    simpa [le16_eq_append, bytesLe16_append] using hbytes
  · rintro ⟨h0, h1⟩
    rw [le16_eq_append, le16_eq_append, h0, h1]

theorem crc16_set_ne {data : List Byte} {i : Nat} {b : Byte} (hi : i < data.length) (hb : b ≠ byteAt data i) :
    crc16 (data.set i b) ≠ crc16 data := by
  obtain ⟨before, after, hdata, _, hset⟩ := List.exists_of_set (a' := b) hi
  have hold : byteAt data i = data[i] := by simp [byteAt, hi]
  rw [hold] at hb
  rw [hset]
  exact fun h => oneChangedByteChangesTheChecksum before after b _ hb (h.trans (congrArg crc16 hdata))

/-- A byte of the checksummed range changes the computed checksum, a byte of the checksum field the given one: the two
cannot agree again. -/
theorem crc16_ne_le16_of_set {r : List Byte} {l i : Nat} {b : Byte} (hr : r.length = frameSize l)
    (hcrc : crc16 (slice r 1 (7 + l)) = le16 r (7 + l)) (h1 : 1 ≤ i) (h9 : i < 9 + l) (hb : b ≠ byteAt r i) :
    crc16 (slice (r.set i b) 1 (7 + l)) ≠ le16 (r.set i b) (7 + l) := by
  rw [frameSize] at hr
  by_cases hbody : i < 7 + l
  · have hfield : le16 (r.set i b) (7 + l) = le16 r (7 + l) :=
      (le16_eq_iff _ _ _).mpr ⟨byteAt_set_ne r b (by omega), byteAt_set_ne r b (by omega)⟩
    have hold : byteAt (slice r 1 (7 + l)) (i - 1) = byteAt r i := by
      rw [byteAt_slice r (by omega), Nat.add_sub_cancel' h1]
    rw [hfield, ← hcrc, slice_set r _ b h1]
    exact crc16_set_ne (by simp [slice]; omega) (hold ▸ hb)
  · have hnew : byteAt (r.set i b) i ≠ byteAt r i := by rwa [byteAt_set_self b (by omega)]
    rw [slice_set_of_le r 1 b h1 (by omega), hcrc]
    intro h
    obtain ⟨hlow, hhigh⟩ := (le16_eq_iff _ _ _).mp h
    obtain rfl | rfl : i = 7 + l ∨ i = 7 + l + 1 := by omega
    · exact hnew hlow.symm
    · exact hnew hhigh.symm

/-! ### VALIDATE, check by check (43 R142 to R146) -/

theorem elim_ok_error_eq_error_iff {ε α : Type} {o : Option ε} {a : α} {e : ε} :
    o.elim (.ok a) Except.error = .error e ↔ o = some e := by
  cases o <;> simp

theorem elim_ok_error_eq_ok {ε α : Type} {o : Option ε} {a a' : α} (h : o.elim (.ok a) Except.error = .ok a') :
    o = none := by
  cases o
  · rfl
  · cases h

/-- A full candidate has passed length and header: only tail and checksum are left to check. -/
theorem validate_fullCandidate (cfg : Config) {c : List Byte} (h : FullCandidate c) :
    validate cfg c = (firstFailure cfg (byteAt c (9 + (byteAt c 1).toNat) != tailByte)
      (crc16 (slice c 1 (7 + (byteAt c 1).toNat)) != le16 c (7 + (byteAt c 1).toNat))).elim
        (.ok { type := byteAt c 2, timestamp := le32 c 3, payload := slice c 7 (7 + (byteAt c 1).toNat) }) .error := by
  rw [validate_sized rfl h.2, if_neg (not_not.mpr h.1)]

theorem validate_badHeader {cfg : Config} {r : List Byte} (hr : r.length = frameSize (byteAt r 1).toNat)
    (h0 : byteAt r 0 ≠ header) : validate cfg r = .error .badHeader := by
  rw [validate_sized rfl hr, if_pos h0]

/-- The tail is checked first (R146, log 6), so a wrong one is reported whatever the checksum. -/
theorem validate_badTail {c : List Byte} (h : FullCandidate c)
    (htail : byteAt c (9 + (byteAt c 1).toNat) ≠ tailByte) : validate config c = .error .badTail := by
  rw [validate_fullCandidate config h, bne_iff_ne.mpr htail]
  rfl

theorem validate_crcMismatch {c : List Byte} (h : FullCandidate c)
    (htail : byteAt c (9 + (byteAt c 1).toNat) = tailByte)
    (hcrc : crc16 (slice c 1 (7 + (byteAt c 1).toNat)) ≠ le16 c (7 + (byteAt c 1).toNat)) :
    validate config c = .error .crcMismatch := by
  rw [validate_fullCandidate config h, bne_eq_false_iff_eq.mpr htail, bne_iff_ne.mpr hcrc]
  rfl

/-- An accepted range has passed the last two checks. -/
theorem validate_ok_tail_crc {cfg : Config} {r : List Byte} {v : Validated} (h : validate cfg r = .ok v) :
    byteAt r (9 + (byteAt r 1).toNat) = tailByte ∧
      crc16 (slice r 1 (7 + (byteAt r 1).toNat)) = le16 r (7 + (byteAt r 1).toNat) := by
  rw [validate_fullCandidate cfg (validate_ok_form h)] at h
  obtain ⟨htail, hcrc⟩ := (firstFailure_eq_none _ _ _).mp (elim_ok_error_eq_ok h)
  exact ⟨bne_eq_false_iff_eq.mp htail, bne_eq_false_iff_eq.mp hcrc⟩

/-- A full candidate is refused for its tail or its checksum only. -/
theorem validate_error_of_fullCandidate {cfg : Config} {c : List Byte} {e : RejectReason} (hc : FullCandidate c)
    (h : validate cfg c = .error e) : e = .badTail ∨ e = .crcMismatch := by
  rw [validate_fullCandidate cfg hc, elim_ok_error_eq_error_iff] at h
  exact (firstFailure_eq_some h).imp And.left And.left

/-! ### VALIDATE with one byte changed (43 R149) -/

theorem validate_set_header {cfg : Config} {r : List Byte} {b : Byte} (h : FullCandidate r) (hb : b ≠ byteAt r 0) :
    validate cfg (r.set 0 b) = .error .badHeader := by
  apply validate_badHeader
  · rw [List.length_set, byteAt_set_ne r b (by decide), h.2]
  · rwa [byteAt_set_self b h.length_pos, ← h.1]

theorem validate_set_length {cfg : Config} {r : List Byte} {b : Byte} (h : FullCandidate r) (hb : b ≠ byteAt r 1) :
    validate cfg (r.set 1 b) = .error .lengthMismatch := by
  have hr : r.length = 10 + (byteAt r 1).toNat := h.2
  have hlen : b.toNat ≠ (byteAt r 1).toNat := fun heq => hb (BitVec.eq_of_toNat_eq heq)
  apply validate_wrongSize
  rw [List.length_set, byteAt_set_self b (by omega), hr]
  exact .inr fun heq => hlen (Nat.add_left_cancel heq).symm

/-- A change behind the length byte leaves a full candidate. -/
theorem fullCandidate_set {r : List Byte} {i : Nat} (b : Byte) (h : FullCandidate r) (hi : 2 ≤ i) :
    FullCandidate (r.set i b) := by
  obtain ⟨h0, hr⟩ := h
  constructor
  · rw [byteAt_set_ne r b (by omega), h0]
  · rw [List.length_set, byteAt_set_ne r b (by omega), hr]

theorem validate_set_tail {r : List Byte} {i : Nat} {b : Byte} (h : FullCandidate r) (hlast : i + 1 = r.length)
    (hb : b ≠ tailByte) : validate config (r.set i b) = .error .badTail := by
  have hr : r.length = 10 + (byteAt r 1).toNat := h.2
  have hplace : 9 + (byteAt r 1).toNat = i := by omega
  have hlength : byteAt (r.set i b) 1 = byteAt r 1 := byteAt_set_ne r b (by omega)
  apply validate_badTail (fullCandidate_set b h (by omega))
  rwa [hlength, hplace, byteAt_set_self b (by omega)]

/-- Behind the length byte and before the tail, `crc16_ne_le16_of_set` applies. -/
theorem validate_set_between {r : List Byte} {v : Validated} {i : Nat} {b : Byte} (hv : validate config r = .ok v)
    (hi : 2 ≤ i) (hlast : i + 1 < r.length) (hb : b ≠ byteAt r i) :
    validate config (r.set i b) = .error .crcMismatch := by
  have hfull : FullCandidate r := validate_ok_form hv
  have hr : r.length = 10 + (byteAt r 1).toNat := hfull.2
  obtain ⟨htail, hcrc⟩ := validate_ok_tail_crc hv
  have hlength : byteAt (r.set i b) 1 = byteAt r 1 := byteAt_set_ne r b (by omega)
  apply validate_crcMismatch (fullCandidate_set b hfull hi)
  · rw [hlength, byteAt_set_ne r b (by omega), htail]
  · rw [hlength]
    exact crc16_ne_le16_of_set hr hcrc (by omega) (by omega) hb

/-- Settles O7: the four places are the header, the length byte, the tail, and what lies between. -/
theorem validateDetectsOneChangedByte : Obligations.ValidateDetectsOneChangedByte := by
  intro r v i b s hv hi hb
  have hfull : FullCandidate r := validate_ok_form hv
  have hr : r.length = 10 + (byteAt r 1).toNat := hfull.2
  rw [at'_eq_byteAt] at hb
  rw [exec_validate_answers_iff]
  split_ifs with hheader hlength hlast
  · subst hheader
    exact validate_set_header hfull hb
  · subst hlength
    exact validate_set_length hfull hb
  · have hplace : 9 + (byteAt r 1).toNat = i := by omega
    exact validate_set_tail hfull hlast ((validate_ok_tail_crc hv).1 ▸ hplace ▸ hb)
  · exact validate_set_between hv (by omega) (by omega) hb

/-! ### Why FEED rejects (43 R148, 60_exceptions.md R170) -/

theorem decodePayload_error {code : Byte} {p : List Byte} {e : RejectReason}
    (h : decodePayload config code p = .error e) : e = .truncatedPayload := by
  rw [decodePayload_eq] at h
  split at h <;> cases h
  rfl

/-- A full candidate is rejected by the Validator for tail or checksum, or by the codec for truncation. -/
theorem resolve_rejected {c raw : List Byte} {reason : RejectReason} (hc : FullCandidate c)
    (h : (resolve config c).outcome = .rejected reason raw) :
    reason = .badTail ∨ reason = .crcMismatch ∨ reason = .truncatedPayload := by
  cases hv : validate config c with
  | error e =>
    rw [resolve_refused hv] at h
    cases h
    exact (validate_error_of_fullCandidate hc hv).imp_right .inl
  | ok v =>
    cases hd : decodePayload config v.type v.payload with
    | error e =>
      rw [resolve_truncated hv hd] at h
      cases h
      exact .inr (.inr (decodePayload_error hd))
    | ok f => rw [resolve_accepted hv hd] at h; cases h

/-- The loop resolves full candidates only. -/
theorem resolveFrom_outcome {w : List Byte} {o : FeedOutcome} (h : o ∈ (resolveFrom config 0 w).1) :
    ∃ c, FullCandidate c ∧ (resolve config c).outcome = o := by
  induction w using stream_induction config with
  | rest noise w hn hw => rw [resolveFrom_noise config hn, resolveFrom_atRest config hw] at h; cases h
  | candidate noise c w hn hc ih =>
    rw [resolveFrom_noise config hn, resolveFrom_candidate config hc] at h
    rcases List.mem_cons.mp h with rfl | hlater
    · exact ⟨c, hc, rfl⟩
    · exact ih hlater

/-- Settles O31: a rejection is the verdict on a full candidate (`resolveFrom_outcome`), and that has three reasons
(`resolve_rejected`). -/
theorem feedRejectsOnlyForTailChecksumOrTruncation : Obligations.FeedRejectsOnlyForTailChecksumOrTruncation := by
  intro chunk s t outs reason raw hexec hret hmem
  rw [exec_feed] at hexec
  cases hexec
  cases hret
  obtain ⟨c, hc, ho⟩ := resolveFrom_outcome hmem
  exact resolve_rejected hc ho

/-! ### What an operation can do (60 section 5, 43 R147) -/

/-- Every operation but the reserved one answers a result, feeds bytes to the buffer, or empties it. -/
theorem exec_cases {i : Instr} (h : i ≠ .reservedCmd7) (s : State) :
    (∃ v, exec i s = .next (answers s v)) ∨ (∃ chunk, exec i s = .next (s.feed chunk)) ∨
      exec i s = .next ((s.setBuf []).ret .nothing) := by
  cases i with
  | reservedCmd7 => exact absurd rfl h
  | crc16 data => exact .inl ⟨_, exec_crc16 data s⟩
  | validate r => exact .inl ⟨_, exec_validate r s⟩
  | decode code p => exact .inl ⟨_, exec_decode code p s⟩
  | encode code f nowMs => exact .inl ⟨_, exec_encode code f nowMs s⟩
  | reset => exact .inr (.inr rfl)
  | _ => exact .inr (.inl ⟨_, rfl⟩)

/-- Settles O51: each of the three things an operation can do (`exec_cases`) is a next state with the port as it was. -/
theorem everyOperationCompletesInEveryState : Obligations.EveryOperationCompletesInEveryState := by
  intro i s h
  rcases exec_cases h s with ⟨v, hv⟩ | ⟨chunk, hfeed⟩ | hreset
  · exact ⟨_, hv, rfl⟩
  · exact ⟨_, hfeed, State.feed_port s chunk⟩
  · exact ⟨_, hreset, rfl⟩

end Sys2Proof

/-! PROOFS. The reset family (70_reset_and_hazards.md): the state after RESET, and the views of its empty buffer. -/

namespace Sys2Proof

open Sys2Proof.Machine

/-! ### The views of the empty buffer (10_state.md R21, R22, R26) -/

@[simp] theorem cursor_nil : cursor [] = 0 := rfl
@[simp] theorem phase_nil : phase [] = .seekHeader := rfl
@[simp] theorem pending_nil : pending [] = false := rfl

/-- Settles O44: the reset state holds the empty buffer (`State.reset_buf`), and its views are those of the empty
buffer. -/
theorem resetStateIsEmpty : Obligations.ResetStateIsEmpty := by
  unfold Obligations.ResetStateIsEmpty
  rw [State.reset_buf]
  exact ⟨rfl, cursor_nil, phase_nil, pending_nil⟩

end Sys2Proof

/-! PROOFS. FEED on streams (42_frame_assembler.md): what the loop does at the front of a stream carries over to whole
streams, by induction along the loop. -/

namespace Sys2Proof

open Sys2Proof.Machine Sys2Proof.Reference

/-! ### FEED from an empty buffer -/

/-- FEED on an empty buffer that leaves none: only the result changes. -/
theorem exec_feed_of_consumed {chunk : List Byte} {s : State} {outs : List FeedOutcome} (hbuf : s.buf = [])
    (h : resolveFrom config 0 chunk = (outs, [])) : exec (.feed chunk) s = .next (answers s (.outcomes outs)) := by
  rw [exec_feed, hbuf, List.nil_append, h, leaves, answers, ← hbuf]

/-- A refused candidate is one rejection, and the loop goes on behind its header (42 R127). -/
theorem resolveFrom_refused {c : List Byte} {e : RejectReason} (hc : FullCandidate c) (h : validate config c = .error e)
    (rest : List Byte) :
    resolveFrom config 0 (c ++ rest) =
      (.rejected e c :: (resolveFrom config 0 (c.drop 1 ++ rest)).1, (resolveFrom config 0 (c.drop 1 ++ rest)).2) := by
  rw [resolveFrom_candidate config hc, resolve_refused h]

/-- A truncated candidate is one rejection and consumed whole (42 R128). -/
theorem resolveFrom_truncated {c : List Byte} {v : Validated} {e : RejectReason} (hv : validate config c = .ok v)
    (he : decodePayload config v.type v.payload = .error e) (rest : List Byte) :
    resolveFrom config 0 (c ++ rest) =
      (.rejected e c :: (resolveFrom config 0 rest).1, (resolveFrom config 0 rest).2) := by
  have hfull : FullCandidate c := validate_ok_form hv
  rw [resolveFrom_candidate config hfull, resolve_truncated hv he, List.drop_length, List.nil_append]

/-- A good frame is one packet, and the loop goes on behind it. -/
theorem resolveFrom_frame (code : Byte) (ms : Nat) {p : List Byte} (hfits : p.length ≤ 255)
    (hmin : minLen code ≤ p.length) (rest : List Byte) :
    resolveFrom config 0 (frame code ms p ++ rest) =
      (.decoded { kind := kindOf code, timestamp := BitVec.ofNat 32 ms, fields := variant code p }
        :: (resolveFrom config 0 rest).1, (resolveFrom config 0 rest).2) :=
  resolveFrom_accepted (validate_frame code ms hfits) (decodePayload_of_minLen_le hmin) rest

/-- A good frame alone in the stream is consumed whole. -/
theorem resolveFrom_frame_only (code : Byte) (ms : Nat) {p : List Byte} (hfits : p.length ≤ 255)
    (hmin : minLen code ≤ p.length) :
    resolveFrom config 0 (frame code ms p) =
      ([.decoded { kind := kindOf code, timestamp := BitVec.ofNat 32 ms, fields := variant code p }], []) := by
  simpa [resolveFrom] using resolveFrom_frame code ms hfits hmin []

/-- Settles O33, by induction on the frames: the bytes in front are passed over (`resolveFrom_noise`), the frame is one
packet (`resolveFrom_frame`). -/
theorem aStreamOfGoodFramesDecodesInOrder : Obligations.AStreamOfGoodFramesDecodesInOrder := by
  intro items s hitems hbuf
  apply exec_feed_of_consumed hbuf
  induction items with
  | nil => rfl
  | cons x rest ih =>
    obtain ⟨hnoise, hfits, hmin⟩ := hitems x List.mem_cons_self
    have hrest := ih fun y hy => hitems y (List.mem_cons_of_mem x hy)
    rw [List.flatMap_cons, List.append_assoc, resolveFrom_noise config hnoise, resolveFrom_frame _ _ hfits hmin, hrest]
    rfl

end Sys2Proof

/-! PROOFS. ENCODE (41_payload_codec.md R110 to R115, 44_facade.md): a payload is the bytes of the variant it stands
for, so encoding and decoding are inverse to each other. -/

namespace Sys2Proof

open Sys2Proof.Machine Sys2Proof.Reference

/-! ### The bytes of a variant -/

/-- The payload of a variant, field by field in the layout's order (R111 to R114); reserved bytes are zero. -/
def payloadBytes : PayloadVariant → List Byte
  | .status fv fr po ve me pr sd es ec =>
    bytesLe32 fv ++ bytesLe32 fr ++ bytesLe32 po ++ bytesLe32 ve ++ [me, pr, sd, es, ec] ++ [0, 0, 0]
  | .forceControl m tf fr mf ht => [m] ++ bytesLe32 tf ++ bytesLe32 fr ++ bytesLe32 mf ++ bytesLe32 ht
  | .heartbeat t st => bytesLe32 t ++ [st]
  | .raw b => b

/-- Behind the four bytes of a value the reads go on in the rest. -/
theorem byteAt_bytesLe32_append (v : U32) (rest : List Byte) (i : Nat) :
    byteAt (bytesLe32 v ++ rest) (i + 4) = byteAt rest i := rfl

theorem le32_bytesLe32_append (v : U32) (rest : List Byte) (i : Nat) :
    le32 (bytesLe32 v ++ rest) (i + 4) = le32 rest i := rfl

theorem le32_cons_succ (b : Byte) (s : List Byte) (i : Nat) : le32 (b :: s) (i + 1) = le32 s i := rfl

/-- The last value of a payload. -/
theorem le32_bytesLe32_self (v : U32) : le32 (bytesLe32 v) 0 = v := by
  simpa using le32_bytesLe32 v []

theorem decodeStatus_payloadBytes (fv fr po ve : F32) (me pr sd es ec : Byte) :
    decodeStatus (payloadBytes (.status fv fr po ve me pr sd es ec)) = .status fv fr po ve me pr sd es ec := by
  simp only [decodeStatus, payloadBytes, List.append_assoc, le32_bytesLe32_append, byteAt_bytesLe32_append,
    le32_bytesLe32, List.cons_append, byteAt_cons_succ, byteAt_cons_zero]

theorem decodeForceControl_payloadBytes (m : Byte) (tf fr mf ht : F32) :
    decodeForceControl (payloadBytes (.forceControl m tf fr mf ht)) = .forceControl m tf fr mf ht := by
  simp only [decodeForceControl, payloadBytes, List.append_assoc, List.cons_append, List.nil_append, le32_cons_succ,
    le32_bytesLe32_append, le32_bytesLe32, le32_bytesLe32_self, byteAt_cons_zero]

theorem decodeHeartbeat_payloadBytes (t : U32) (st : Byte) :
    decodeHeartbeat (payloadBytes (.heartbeat t st)) = .heartbeat t st := by
  simp only [decodeHeartbeat, payloadBytes, le32_bytesLe32, byteAt_bytesLe32_append, byteAt_cons_zero]

/-! ### ENCODE_PAYLOAD writes the variant of its record (R110) -/

theorem sent_raw {code : Byte} (f : Fields) (h1 : code ≠ 0x10) (h2 : code ≠ 0x30) (h3 : code ≠ 0x90) :
    sent code f = .raw f.raw := by
  rw [sent, if_neg h1, if_neg h2, if_neg h3]

theorem fieldsPresent_status (f : Fields) :
    FieldsPresent 0x10 f ↔ f.forceValue.isSome ∧ f.forceRate.isSome ∧ f.position.isSome ∧ f.velocity.isSome ∧
      f.motorEnabled.isSome ∧ f.positionReached.isSome ∧ f.stallDetected.isSome ∧ f.emergencyStop.isSome ∧
        f.errorCode.isSome := Iff.rfl

theorem fieldsPresent_force (f : Fields) :
    FieldsPresent 0x30 f ↔ f.mode.isSome ∧ f.targetForce.isSome ∧ f.forceRate.isSome := Iff.rfl

theorem fieldsPresent_heartbeat (f : Fields) : FieldsPresent 0x90 f ↔ f.timestamp.isSome ∧ f.status.isSome := Iff.rfl

theorem fieldsPresent_raw {code : Byte} (f : Fields) (h1 : code ≠ 0x10) (h2 : code ≠ 0x30) (h3 : code ≠ 0x90) :
    FieldsPresent code f ↔ f.raw.length ≤ 255 := by
  rw [FieldsPresent, if_neg h1, if_neg h2, if_neg h3]

/-- Decoding what is written for a record gives its values. -/
theorem variant_payloadBytes_sent (code : Byte) (f : Fields) :
    variant code (payloadBytes (sent code f)) = sent code f := by
  rcases layout_cases code with ⟨_, rfl⟩ | ⟨_, rfl⟩ | ⟨_, rfl⟩ | ⟨_, h1, h2, h3⟩
  · rw [variant_status]; exact decodeStatus_payloadBytes ..
  · rw [variant_force]; exact decodeForceControl_payloadBytes ..
  · rw [variant_heartbeat]; exact decodeHeartbeat_payloadBytes ..
  · rw [variant_raw _ h1 h2 h3, sent_raw f h1 h2 h3]; rfl

/-- The three layouts are written at their exact size (90_conflicts.md C8). -/
theorem payloadBytes_sent_length {code : Byte} (f : Fields) (h : code = 0x10 ∨ code = 0x30 ∨ code = 0x90) :
    (payloadBytes (sent code f)).length = minLen code := by
  rcases h with rfl | rfl | rfl <;> rfl

theorem minLen_le_payloadBytes_sent (code : Byte) (f : Fields) : minLen code ≤ (payloadBytes (sent code f)).length := by
  rcases layout_cases code with ⟨_, h⟩ | ⟨_, h⟩ | ⟨_, h⟩ | ⟨_, h1, h2, h3⟩
  · exact (payloadBytes_sent_length f (.inl h)).ge
  · exact (payloadBytes_sent_length f (.inr (.inl h))).ge
  · exact (payloadBytes_sent_length f (.inr (.inr h))).ge
  · rw [minLen_raw h1 h2 h3]; exact Nat.zero_le _

/-- With the required fields present the payload is that of the record's variant. -/
theorem encodePayload_of_fieldsPresent {code : Byte} {f : Fields} (h : FieldsPresent code f) :
    encodePayload code f = .ok (payloadBytes (sent code f)) := by
  rcases layout_cases code with ⟨_, rfl⟩ | ⟨_, rfl⟩ | ⟨_, rfl⟩ | ⟨_, h1, h2, h3⟩
  · simp only [fieldsPresent_status, Option.isSome_iff_exists] at h
    obtain ⟨⟨fv, hfv⟩, ⟨fr, hfr⟩, ⟨po, hpo⟩, ⟨ve, hve⟩, ⟨me, hme⟩, ⟨pr, hpr⟩, ⟨sd, hsd⟩, ⟨es, hes⟩, ⟨ec, hec⟩⟩ := h
    show encodeStatus f = _
    simp only [encodeStatus, sent, hfv, hfr, hpo, hve, hme, hpr, hsd, hes, hec]
    rfl
  · simp only [fieldsPresent_force, Option.isSome_iff_exists] at h
    obtain ⟨⟨m, hm⟩, ⟨tf, htf⟩, ⟨fr, hfr⟩⟩ := h
    show encodeForceControl f = _
    simp only [encodeForceControl, sent, hm, htf, hfr]
    rfl
  · simp only [fieldsPresent_heartbeat, Option.isSome_iff_exists] at h
    obtain ⟨⟨t, ht⟩, ⟨st, hst⟩⟩ := h
    show encodeHeartbeat f = _
    simp only [encodeHeartbeat, sent, ht, hst]
    rfl
  · rw [encodePayload_raw h1 h2 h3, if_pos ((fieldsPresent_raw f h1 h2 h3).mp h), sent_raw f h1 h2 h3]
    rfl

/-- A writer that asks for a field misses it, or misses one further on. -/
theorem required_bind_eq_missing_iff {α : Type} (o : Option α) (k : α → Except EncodeError (List Byte)) :
    (required o >>= k) = .error .missingRequiredField ↔ ∀ v, o = some v → k v = .error .missingRequiredField := by
  cases o with
  | none => exact ⟨fun _ _ h => (nomatch h), fun _ => rfl⟩
  | some v => exact ⟨fun h _ hv => Option.some.inj hv ▸ h, fun h => h v rfl⟩

theorem pure_eq_error_iff (p : List Byte) (e : EncodeError) : (pure p : Except EncodeError _) = .error e ↔ False :=
  ⟨nofun, nofun⟩

/-- A layout is refused exactly when a required field is absent (R115). -/
theorem encodePayload_eq_missing_iff {code : Byte} (f : Fields) (h : code = 0x10 ∨ code = 0x30 ∨ code = 0x90) :
    encodePayload code f = .error .missingRequiredField ↔ ¬ FieldsPresent code f := by
  rcases h with rfl | rfl | rfl
  · rw [fieldsPresent_status]
    show encodeStatus f = _ ↔ _
    simp [-bind_pure_comp, encodeStatus, required_bind_eq_missing_iff, pure_eq_error_iff, Option.isSome_iff_exists]
  · rw [fieldsPresent_force]
    show encodeForceControl f = _ ↔ _
    simp [-bind_pure_comp, encodeForceControl, required_bind_eq_missing_iff, pure_eq_error_iff,
      Option.isSome_iff_exists]
  · rw [fieldsPresent_heartbeat]
    show encodeHeartbeat f = _ ↔ _
    simp [-bind_pure_comp, encodeHeartbeat, required_bind_eq_missing_iff, pure_eq_error_iff, Option.isSome_iff_exists]

/-- What ENCODE_PAYLOAD writes is the payload of the record's variant, and only with the required fields. -/
theorem encodePayload_ok {code : Byte} {f : Fields} {p : List Byte} (h : encodePayload code f = .ok p) :
    p = payloadBytes (sent code f) := by
  by_cases hpresent : FieldsPresent code f
  · rw [encodePayload_of_fieldsPresent hpresent] at h
    exact (Except.ok.inj h).symm
  · rcases layout_cases code with ⟨_, hc⟩ | ⟨_, hc⟩ | ⟨_, hc⟩ | ⟨_, h1, h2, h3⟩
    · rw [(encodePayload_eq_missing_iff f (.inl hc)).mpr hpresent] at h; cases h
    · rw [(encodePayload_eq_missing_iff f (.inr (.inl hc))).mpr hpresent] at h; cases h
    · rw [(encodePayload_eq_missing_iff f (.inr (.inr hc))).mpr hpresent] at h; cases h
    · rw [encodePayload_raw h1 h2 h3, if_neg (hpresent ∘ (fieldsPresent_raw f h1 h2 h3).mpr)] at h; cases h

/-! ### ENCODE (44_facade.md R151 to R158) -/

theorem encodeFrame_ok {code : Byte} {f : Fields} {p : List Byte} (ms : Nat) (h : encodePayload code f = .ok p) :
    encodeFrame code f ms = .ok (frame code ms p) := by
  rw [encodeFrame, h, frame_eq_buildFrame]

theorem encodeFrame_eq_error_iff (code : Byte) (f : Fields) (ms : Nat) (e : EncodeError) :
    encodeFrame code f ms = .error e ↔ encodePayload code f = .error e := by
  rw [encodeFrame]
  cases encodePayload code f <;> simp

/-- A frame comes from a payload (R153). -/
theorem encodeFrame_eq_ok {code : Byte} {f : Fields} {ms : Nat} {fr : List Byte} (h : encodeFrame code f ms = .ok fr) :
    ∃ p, encodePayload code f = .ok p ∧ fr = frame code ms p := by
  cases hp : encodePayload code f with
  | error e => rw [(encodeFrame_eq_error_iff code f ms e).mpr hp] at h; cases h
  | ok p =>
    rw [encodeFrame_ok ms hp] at h
    exact ⟨p, rfl, (Except.ok.inj h).symm⟩

/-- With the required fields present ENCODE answers the frame of the record's variant. -/
theorem exec_encode_of_fieldsPresent {code : Byte} {f : Fields} (h : FieldsPresent code f) (ms : Nat) (s : State) :
    exec (.encode code f ms) s = .next (answers s (.frame (.ok (frame code ms (payloadBytes (sent code f)))))) := by
  rw [exec_encode, encodeFrame_ok ms (encodePayload_of_fieldsPresent h)]

/-- Settles O18: the frame's payload is `payloadBytes` of the record's variant (`encodePayload_ok`), which is accepted
and decodes to that variant (`variant_payloadBytes_sent`). -/
theorem feedDecodesWhatEncodeBuilds : Obligations.FeedDecodesWhatEncodeBuilds := by
  intro code f ms s t fr hexec hret hbuf
  rw [exec_encode] at hexec
  cases hexec
  obtain ⟨p, hp, rfl⟩ := encodeFrame_eq_ok (Result.frame.inj hret)
  have hmin : minLen code ≤ p.length := encodePayload_ok hp ▸ minLen_le_payloadBytes_sent code f
  have hvalues : variant code p = sent code f := by rw [encodePayload_ok hp, variant_payloadBytes_sent]
  rw [← hvalues]
  exact exec_feed_of_consumed hbuf (resolveFrom_frame_only code ms (encodePayload_length hp) hmin)

/-- Settles O13: the nine fields are those `FieldsPresent` asks for, and the payload is `payloadBytes` of their values.
-/
theorem encodeBuildsTheStatusFrame : Obligations.EncodeBuildsTheStatusFrame := by
  intro f fv fr po ve me pr sd es ec ms s hfv hfr hpo hve hme hpr hsd hes hec
  have hpresent : FieldsPresent 0x10 f := by
    simp only [fieldsPresent_status, hfv, hfr, hpo, hve, hme, hpr, hsd, hes, hec, Option.isSome_some, and_self]
  rw [exec_encode_of_fieldsPresent hpresent]
  simp only [sent, if_true, hfv, hfr, hpo, hve, hme, hpr, hsd, hes, hec, Option.getD_some, payloadBytes, bytes4_toNat,
    List.append_assoc, List.cons_append, List.nil_append]

/-- A field with a default: the bytes of the default, or of the value given. -/
theorem bytesLe32_getD (o : Option U32) (default : U32) :
    bytesLe32 (o.getD default) = o.elim (bytesLe32 default) (fun x => bytes4 x.toNat) := by
  cases o with
  | none => rfl
  | some x => exact (bytes4_toNat x).symm

/-- Settles O14: the same with three required fields; an absent field stands for its default in `sent`. -/
theorem encodeBuildsTheForceControlFrame : Obligations.EncodeBuildsTheForceControlFrame := by
  intro f m tf fr ms s hm htf hfr
  have hpresent : FieldsPresent 0x30 f := by
    simp only [fieldsPresent_force, hm, htf, hfr, Option.isSome_some, and_self]
  have hmax : bytesLe32 0x40A00000 = [0x00, 0x00, 0xA0, 0x40] := by decide
  have hhold : bytesLe32 0 = [0x00, 0x00, 0x00, 0x00] := by decide
  have hsent : sent 0x30 f = .forceControl m tf fr (f.maxForce.getD 0x40A00000) (f.holdTime.getD 0) := by
    simp [sent, hm, htf, hfr]
  rw [exec_encode_of_fieldsPresent hpresent, hsent, payloadBytes, bytesLe32_getD, bytesLe32_getD, hmax, hhold,
    bytes4_toNat, bytes4_toNat]

/-- Settles O15: the same with two required fields. -/
theorem encodeBuildsTheHeartbeatFrame : Obligations.EncodeBuildsTheHeartbeatFrame := by
  intro f t st ms s ht hst
  have hpresent : FieldsPresent 0x90 f := by
    simp only [fieldsPresent_heartbeat, ht, hst, Option.isSome_some, and_self]
  have hsent : sent 0x90 f = .heartbeat t st := by simp [sent, ht, hst]
  rw [exec_encode_of_fieldsPresent hpresent, hsent, payloadBytes, bytes4_toNat]

/-- Settles O16: the length of the bytes decides (`encodePayload_raw`). -/
theorem encodeFramesRawBytesUnchanged : Obligations.EncodeFramesRawBytesUnchanged := by
  intro code f ms s h1 h2 h3
  have hp := encodePayload_raw (f := f) h1 h2 h3
  rw [exec_encode]
  split_ifs at hp ⊢ with hfits
  · rw [encodeFrame_ok ms hp]
  · rw [(encodeFrame_eq_error_iff code f ms _).mpr hp]

/-- Settles O17: the codec refuses exactly when a field is absent (`encodePayload_eq_missing_iff`), and otherwise writes
a payload of the layout's size (`payloadBytes_sent_length`). -/
theorem encodeFailsExactlyOnAMissingRequiredField : Obligations.EncodeFailsExactlyOnAMissingRequiredField := by
  intro code f ms s hcode
  constructor
  · calc exec (.encode code f ms) s = .next (answers s (.frame (.error .missingRequiredField)))
        ↔ encodeFrame code f ms = .error .missingRequiredField := by simp [exec_encode, answers]
      _ ↔ encodePayload code f = .error .missingRequiredField := encodeFrame_eq_error_iff ..
      _ ↔ ¬ FieldsPresent code f := encodePayload_eq_missing_iff f hcode
  · intro hpresent
    exact ⟨_, payloadBytes_sent_length f hcode, exec_encode_of_fieldsPresent hpresent ms s⟩

/-! ### Encoding what was decoded (41 R118) -/

/-- A decoded payload of a fitting length gives a record with every required field. -/
theorem fieldsPresent_fieldsOf_variant (code : Byte) {p : List Byte} (h : p.length ≤ 255) :
    FieldsPresent code (fieldsOf (variant code p)) := by
  rcases layout_cases code with ⟨_, rfl⟩ | ⟨_, rfl⟩ | ⟨_, rfl⟩ | ⟨_, h1, h2, h3⟩
  · exact (fieldsPresent_status _).mpr ⟨rfl, rfl, rfl, rfl, rfl, rfl, rfl, rfl, rfl⟩
  · exact (fieldsPresent_force _).mpr ⟨rfl, rfl, rfl⟩
  · exact (fieldsPresent_heartbeat _).mpr ⟨rfl, rfl⟩
  · rw [variant_raw p h1 h2 h3]
    exact (fieldsPresent_raw _ h1 h2 h3).mpr h

/-- The record of a decoded payload holds the decoded values. -/
theorem sent_fieldsOf_variant (code : Byte) (p : List Byte) :
    sent code (fieldsOf (variant code p)) = variant code p := by
  rcases layout_cases code with ⟨_, rfl⟩ | ⟨_, rfl⟩ | ⟨_, rfl⟩ | ⟨_, h1, h2, h3⟩
  · rfl
  · rfl
  · rfl
  · rw [variant_raw p h1 h2 h3, sent_raw _ h1 h2 h3]; rfl

/-- A payload read on from an offset, byte by byte or word by word. -/
theorem drop_eq_byteAt_cons {p : List Byte} {i : Nat} (h : i < p.length) : p.drop i = byteAt p i :: p.drop (i + 1) := by
  rw [List.drop_eq_getElem_cons h, byteAt, List.getD_eq_getElem _ _ h]

theorem drop_eq_le32_append {p : List Byte} {i : Nat} (h : i + 3 < p.length) :
    p.drop i = bytesLe32 (le32 p i) ++ p.drop (i + 4) := by
  rw [le32_eq_append, bytesLe32_append, drop_eq_byteAt_cons (by omega : i < p.length),
    drop_eq_byteAt_cons (by omega : i + 1 < p.length), drop_eq_byteAt_cons (by omega : i + 2 < p.length),
    drop_eq_byteAt_cons h]
  rfl

theorem payloadBytes_decodeStatus {p : List Byte} (h : p.length = 24) (h21 : byteAt p 21 = 0) (h22 : byteAt p 22 = 0)
    (h23 : byteAt p 23 = 0) : payloadBytes (decodeStatus p) = p := by
  calc payloadBytes (decodeStatus p) = p.drop 0 := by
        rw [drop_eq_le32_append (by omega), drop_eq_le32_append (by omega), drop_eq_le32_append (by omega),
          drop_eq_le32_append (by omega), drop_eq_byteAt_cons (by omega), drop_eq_byteAt_cons (by omega),
          drop_eq_byteAt_cons (by omega), drop_eq_byteAt_cons (by omega), drop_eq_byteAt_cons (by omega),
          drop_eq_byteAt_cons (by omega), drop_eq_byteAt_cons (by omega), drop_eq_byteAt_cons (by omega),
          List.drop_eq_nil_of_le (by omega), h21, h22, h23]
        rfl
    _ = p := List.drop_zero

theorem payloadBytes_decodeForceControl {p : List Byte} (h : p.length = 17) :
    payloadBytes (decodeForceControl p) = p := by
  calc payloadBytes (decodeForceControl p) = p.drop 0 := by
        rw [drop_eq_byteAt_cons (by omega), drop_eq_le32_append (by omega), drop_eq_le32_append (by omega),
          drop_eq_le32_append (by omega), drop_eq_le32_append (by omega), List.drop_eq_nil_of_le (by omega)]
        rfl
    _ = p := List.drop_zero

theorem payloadBytes_decodeHeartbeat {p : List Byte} (h : p.length = 5) : payloadBytes (decodeHeartbeat p) = p := by
  calc payloadBytes (decodeHeartbeat p) = p.drop 0 := by
        rw [drop_eq_le32_append (by omega), drop_eq_byteAt_cons (by omega), List.drop_eq_nil_of_le (by omega)]
        rfl
    _ = p := List.drop_zero

theorem exactPayload_status (p : List Byte) :
    ExactPayload 0x10 p ↔ p.length = 24 ∧ byteAt p 21 = 0 ∧ byteAt p 22 = 0 ∧ byteAt p 23 = 0 := by
  simp only [ExactPayload, if_true, at'_eq_byteAt]

theorem exactPayload_force (p : List Byte) : ExactPayload 0x30 p ↔ p.length = 17 := Iff.rfl

theorem exactPayload_heartbeat (p : List Byte) : ExactPayload 0x90 p ↔ p.length = 5 := Iff.rfl

theorem exactPayload_raw {code : Byte} (p : List Byte) (h1 : code ≠ 0x10) (h2 : code ≠ 0x30) (h3 : code ≠ 0x90) :
    ExactPayload code p := by
  rw [ExactPayload, if_neg h1, if_neg h2, if_neg h3]; trivial

/-- The bytes of a decoded variant are the payload exactly when nothing was ignored in it. -/
theorem payloadBytes_variant_eq_iff (code : Byte) (p : List Byte) :
    payloadBytes (variant code p) = p ↔ ExactPayload code p := by
  rcases layout_cases code with ⟨_, rfl⟩ | ⟨_, rfl⟩ | ⟨_, rfl⟩ | ⟨_, h1, h2, h3⟩
  · rw [variant_status, exactPayload_status]
    constructor
    · intro h
      have hlen : (payloadBytes (decodeStatus p)).length = 24 := rfl
      have hreserved : byteAt (payloadBytes (decodeStatus p)) 21 = 0 ∧ byteAt (payloadBytes (decodeStatus p)) 22 = 0 ∧
          byteAt (payloadBytes (decodeStatus p)) 23 = 0 := ⟨rfl, rfl, rfl⟩
      rw [h] at hlen hreserved
      exact ⟨hlen, hreserved⟩
    · rintro ⟨hlen, h21, h22, h23⟩
      exact payloadBytes_decodeStatus hlen h21 h22 h23
  · rw [variant_force, exactPayload_force]
    exact ⟨fun h => congrArg List.length h.symm, payloadBytes_decodeForceControl⟩
  · rw [variant_heartbeat, exactPayload_heartbeat]
    exact ⟨fun h => congrArg List.length h.symm, payloadBytes_decodeHeartbeat⟩
  · rw [variant_raw p h1 h2 h3]
    exact iff_of_true rfl (exactPayload_raw p h1 h2 h3)

/-- Settles O12: the decoded record is written as `payloadBytes` of the variant, which is the payload exactly when it is
an exact one (`payloadBytes_variant_eq_iff`). -/
theorem reencodingGivesBackExactPayloads : Obligations.ReencodingGivesBackExactPayloads := by
  intro code p v hfits hdec
  have hmin : ¬ p.length < minLen code := fun hshort => by
    rw [(decodePayload_eq_truncated_iff code p).mpr hshort] at hdec; cases hdec
  rw [decodePayload_of_minLen_le (Nat.le_of_not_lt hmin)] at hdec
  cases hdec
  rw [encodePayload_of_fieldsPresent (fieldsPresent_fieldsOf_variant code hfits), sent_fieldsOf_variant,
    Except.ok.injEq, payloadBytes_variant_eq_iff]

/-! ### DECODE without a layout (41 R106) -/

theorem exec_decode_raw {code : Byte} (p : List Byte) (s : State) (h1 : code ≠ 0x10) (h2 : code ≠ 0x30)
    (h3 : code ≠ 0x90) : exec (.decode code p) s = .next (answers s (.variant (kindOf code) (.ok (.raw p)))) := by
  rw [exec_decode, decodePayload_of_minLen_le (minLen_raw h1 h2 h3 ▸ Nat.zero_le _), variant_raw p h1 h2 h3]

/-- Settles O11: none of the eight codes is one of the three with a layout. -/
theorem decodeOfNamedKindsWithoutALayoutIsRaw : Obligations.DecodeOfNamedKindsWithoutALayoutIsRaw := by
  intro code k p s hmem
  have hnamed : ∀ x ∈ ([(0x00, .handshake), (0x20, .alert), (0x21, .complete), (0x31, .positionControl),
      (0x32, .hybridControl), (0x40, .parameterSet), (0x50, .emergencyStop), (0x80, .response)] :
        List (Byte × PacketKind)), kindOf x.1 = x.2 ∧ x.1 ≠ 0x10 ∧ x.1 ≠ 0x30 ∧ x.1 ≠ 0x90 := by decide
  obtain ⟨hkind, h1, h2, h3⟩ := hnamed (code, k) hmem
  rw [exec_decode_raw p s h1 h2 h3, hkind]

end Sys2Proof

/-! PROOFS. Encoding and decoding of calls (30_encoding.md): what stands at the ports and the instruction it is
determine each other. -/

namespace Sys2Proof

open Sys2Proof.Machine Sys2Proof.Reference

/-! ### Full candidates in the reference's words (30 R60, R70) -/

theorem isCandidate_iff (c : List Byte) : IsCandidate c ↔ FullCandidate c := by
  simp only [IsCandidate, FullCandidate, at'_eq_byteAt, header, frameSize]

theorem candidate_eq_frameBytes (code : Byte) (ts : U32) (p : List Byte) (crcField : U16) (tail : Byte) :
    candidate code ts p crcField tail = frameBytes code ts p crcField tail := by
  simp [candidate, frameBytes_eq, bytes4_toNat, bytes2_toNat, header]

/-! ### The FRAME rows (30 R60, R71) -/

theorem decode_wire_full {r : List Byte} (h : FullCandidate r) :
    decode (.wire r) = frameInstr (kindOf (byteAt r 2)) (le32 r 3) (slice r 7 (7 + (byteAt r 1).toNat))
      (le16 r (7 + (byteAt r 1).toNat)) (byteAt r (9 + (byteAt r 1).toNat)) := by
  rw [decode, decodeFrame_full h]

/-- The bytes of a frame decode to the row of its type code with the frame's fields. -/
theorem decode_wireOf (code : Byte) (ts : U32) {p : List Byte} (crc : U16) (tail : Byte) (h : payloadFits p = true) :
    decode (wireOf code ts p crc tail) = frameInstr (kindOf code) ts p crc tail := by
  have hfits : p.length ≤ 255 := of_decide_eq_true h
  rw [wireOf, decode_wire_full (frameBytes_full code ts p crc tail hfits), frameBytes_len code ts p crc tail hfits,
    frameBytes_code, frameBytes_timestamp, frameBytes_payload, frameBytes_crc, frameBytes_tail]

/-- Settles O54: a select code picks its own operation, and the row's type code picks its own row (`decode_wireOf`). -/
theorem decodeOfEncodeIsTheInstruction : Obligations.DecodeOfEncodeIsTheInstruction := by
  intro i hwf
  cases i with
  | crc16 data => rfl
  | push b => rfl
  | feed chunk => rfl
  | reset => rfl
  | validate r => rfl
  | decode code payload => rfl
  | encode code fields nowMs =>
    have hown : restrictFields (layoutOf (kindOf code)) fields = fields := of_decide_eq_true hwf
    exact congrArg (Instr.encode code · nowMs) hown
  | reservedCmd7 => rfl
  | handshake ts p crc tail => exact decode_wireOf 0x00 ts crc tail hwf
  | status ts p crc tail => exact decode_wireOf 0x10 ts crc tail hwf
  | alert ts p crc tail => exact decode_wireOf 0x20 ts crc tail hwf
  | complete ts p crc tail => exact decode_wireOf 0x21 ts crc tail hwf
  | forceControl ts p crc tail => exact decode_wireOf 0x30 ts crc tail hwf
  | positionControl ts p crc tail => exact decode_wireOf 0x31 ts crc tail hwf
  | hybridControl ts p crc tail => exact decode_wireOf 0x32 ts crc tail hwf
  | parameterSet ts p crc tail => exact decode_wireOf 0x40 ts crc tail hwf
  | emergencyStop ts p crc tail => exact decode_wireOf 0x50 ts crc tail hwf
  | response ts p crc tail => exact decode_wireOf 0x80 ts crc tail hwf
  | heartbeat ts p crc tail => exact decode_wireOf 0x90 ts crc tail hwf
  | unknown code ts p crc tail =>
    obtain ⟨hunnamed, hfits⟩ := Bool.and_eq_true_iff.mp hwf
    have hkind : kindOf code = .unknown code := of_decide_eq_true hunnamed
    exact (decode_wireOf code ts crc tail hfits).trans (hkind ▸ rfl)

/-- Settles O55: what decodes is a full candidate, and a full candidate is the frame of its fields (`eq_frameBytes`),
whose type code the row's kind keeps (`codeOf_kindOf`). -/
theorem encodeOfADecodedFrameIsItsBytes : Obligations.EncodeOfADecodedFrameIsItsBytes := by
  constructor
  · intro r i hi
    have hfull := decodeFrame_ok hi
    rw [decodeFrame_full hfull] at hi
    cases hi
    rw [encode_frameInstr, codeOf_kindOf, ← eq_frameBytes hfull.1 hfull.2]
    exact ⟨rfl, (isCandidate_iff r).mpr hfull⟩
  · intro r hr
    exact ⟨_, decodeFrame_full ((isCandidate_iff r).mp hr)⟩

/-! ### Well-formed instructions (30 R82, 41 R101, R110) -/

/-- A type byte never gives `unknown` with a named code, so only the payload's length is left to check. -/
theorem wellFormed_frameInstr (code : Byte) (ts : U32) {p : List Byte} (crc : U16) (tail : Byte)
    (h : payloadFits p = true) : WellFormed (frameInstr (kindOf code) ts p crc tail) = true := by
  cases hk : kindOf code with
  | unknown c =>
    have hc : c = code := by simpa [hk, codeOf] using codeOf_kindOf code
    exact Bool.and_eq_true_iff.mpr ⟨decide_eq_true (hc ▸ hc ▸ hk), h⟩
  | _ => exact h

theorem wellFormed_decodeRequest (q : Request) : WellFormed (decodeRequest q) = true := by
  unfold decodeRequest
  split_ifs
  · rfl
  · rfl
  · rfl
  · rfl
  · rfl
  · rfl
  · exact decide_eq_true (restrictFields_idem _ q.fields)
  · rfl

/-- Settles O56: a command is cut down to its own record, a chunk is a FEED or the row of a candidate. -/
theorem everyInputDecodesToAWellFormedInstruction : Obligations.EveryInputDecodesToAWellFormedInstruction := by
  intro x
  cases x with
  | command q => exact wellFormed_decodeRequest q
  | wire r =>
    cases hr : decodeFrame r with
    | error e => rw [decode, hr]; rfl
    | ok i =>
      have hfull := decodeFrame_ok hr
      have hlen : (slice r 7 (7 + (byteAt r 1).toNat)).length ≤ 255 := by
        rw [payload_length hfull.2]; omega
      rw [decode_wire_full hfull]
      exact wellFormed_frameInstr _ _ _ _ (decide_eq_true hlen)

/-! ### The opcode table (30 section 8) -/

/-- A frame whose timestamp, payload, checksum field and tail are zero. -/
theorem frameBytes_zero (len code : Byte) :
    frameBytes code 0 (List.replicate len.toNat 0) 0 0 = [header, len, code] ++ List.replicate (7 + len.toNat) 0 := by
  have hts : bytesLe32 0 = List.replicate 4 0 := by decide
  have hcrc : bytesLe16 0 = List.replicate 2 0 := by decide
  have htail : ([0] : List Byte) = List.replicate 1 0 := rfl
  have hlen : BitVec.ofNat 8 (List.replicate len.toNat (0 : Byte)).length = len := by
    rw [List.length_replicate, BitVec.ofNat_toNat, BitVec.setWidth_eq]
  rw [frameBytes_eq, hlen, hts, hcrc, htail, List.replicate_append_replicate, List.replicate_append_replicate,
    List.replicate_append_replicate, show 4 + (len.toNat + (2 + 1)) = 7 + len.toNat by omega]

/-- The bytes of a table word as the table numbers them: three of its own, and zeros above. -/
theorem map_byteOf_range {w : Nat} (h : w < 2 ^ 24) (m : Nat) :
    (List.range (3 + m)).map (byteOf w) = [byteOf w 0, byteOf w 1, byteOf w 2] ++ List.replicate m 0 := by
  have hzero : ∀ i, byteOf w (3 + i) = 0 := fun i => by
    have hlt : w < 2 ^ (8 * (3 + i)) := h.trans_le (Nat.pow_le_pow_right (by decide) (by omega))
    rw [byteOf, Nat.shiftRight_eq_div_pow, Nat.div_eq_of_lt hlt]
    rfl
  have habove : byteOf w ∘ (3 + ·) = fun _ => 0 := funext hzero
  rw [List.range_add, List.map_append, List.map_map, habove, List.map_const', List.length_range]
  rfl

/-- The input of a three-byte word with the header: a frame of zeros of the declared length. -/
theorem tableInput_frame (len code : Byte) :
    tableInput 24 (0xAA + 256 * len.toNat + 65536 * code.toNat) = wireOf code 0 (List.replicate len.toNat 0) 0 0 := by
  have hlen := len.isLt
  have hcode := code.isLt
  generalize hw : 0xAA + 256 * len.toNat + 65536 * code.toNat = w
  have hsize : w < 2 ^ 24 := by omega
  have hbyte (i : Nat) (b : Byte) (h : w / 2 ^ (8 * i) % 2 ^ 8 = b.toNat) : byteOf w i = b := by
    apply BitVec.eq_of_toNat_eq
    rw [byteOf, BitVec.toNat_ofNat, Nat.shiftRight_eq_div_pow, h]
  have h0 : byteOf w 0 = header := hbyte 0 header (by change _ = 0xAA; omega)
  have h1 : byteOf w 1 = len := hbyte 1 len (by omega)
  have h2 : byteOf w 2 = code := hbyte 2 code (by omega)
  calc tableInput 24 w = .wire ((List.range (3 + (7 + (byteOf w 1).toNat))).map (byteOf w)) := by
        have hsplit : frameSize (byteOf w 1).toNat = 3 + (7 + (byteOf w 1).toNat) := by unfold frameSize; omega
        rw [tableInput, if_neg (by decide), Nat.mod_eq_of_lt hsize, ← hsplit]
    _ = wireOf code 0 (List.replicate len.toNat 0) 0 0 := by
        rw [map_byteOf_range hsize, h0, h1, h2, wireOf, frameBytes_zero]

/-- Settles O57: the word's bytes are a frame of zeros (`tableInput_frame`), which decodes to the row of its type code.
-/
theorem tableWordsSelectTheRowOfTheirTypeByte : Obligations.TableWordsSelectTheRowOfTheirTypeByte := by
  intro len code
  have hfits : payloadFits (List.replicate len.toNat 0) = true :=
    decide_eq_true (by rw [List.length_replicate]; omega)
  have hdec := decode_wireOf code 0 0 0 hfits
  have hfull := frameBytes_full code 0 (List.replicate len.toNat 0) 0 0 (of_decide_eq_true hfits)
  rw [wireOf, decode_wire_full hfull] at hdec
  rw [decodeTableWord, tableInput_frame, wireOf]
  simp only [decodeFrame_full hfull, hdec]

/-- Settles O58, by evaluation: the words are closed terms. -/
theorem sampleWordsDecodeToTheirInstructions : Obligations.SampleWordsDecodeToTheirInstructions := by
  refine ⟨?_, ?_, ?_, ?_⟩ <;> decide

/-! ### The step takes the oldest call (20_memory.md R48, R50) -/

theorem step_nil {s : State} (h : s.port = []) : step s = .next s := by
  rw [step, h]

theorem step_cons {s : State} {x : Input} {rest : List Input} (h : s.port = x :: rest) :
    step s = exec (decode x) { s with port := rest } := by
  rw [step, h]

/-- Settles O59: the call is the encoding, and that decodes to the instruction (`decodeOfEncodeIsTheInstruction`). -/
theorem aStepRunsTheOldestCall : Obligations.AStepRunsTheOldestCall := by
  intro s i x rest
  refine ⟨fun hwf hport => ?_, step_cons, step_nil⟩
  rw [step_cons hport, decodeOfEncodeIsTheInstruction i hwf]

/-- Settles O52: the request decodes to the reserved operation, which is refused. -/
theorem theReservedSelectCodeIsRefused : Obligations.TheReservedSelectCodeIsRefused := by
  intro q s hcmd
  have hdec : decodeRequest q = .reservedCmd7 := by simp [decodeRequest, hcmd]
  refine ⟨rfl, ?_⟩
  rw [step_cons rfl, decode, hdec]
  rfl

end Sys2Proof

/-! PROOFS. The Checksum Engine and the Frame Validator (40_checksum.md, 43_frame_validator.md): the register of the
algorithm, the byte step as a bijection, and VALIDATE check by check. -/

namespace Sys2Proof

open Sys2Proof.Machine Sys2Proof.Reference

/-! ### CRC16 (40 R90 to R95) -/

theorem checksum_eq_crc16 (data : List Byte) : Reference.checksum data = crc16 data := by
  rw [Reference.checksum, ← crc16_toNat, BitVec.ofNat_toNat, BitVec.setWidth_eq]

/-- Settles O1: the machine's register is the algorithm's (`crc16_toNat`), and it has 16 bits. -/
theorem crc16ReturnsTheRegisterOfTheAlgorithm : Obligations.Crc16ReturnsTheRegisterOfTheAlgorithm := by
  intro data s
  refine ⟨crc16_toNat data ▸ (crc16 data).isLt, ?_⟩
  rw [exec_crc16, checksum_eq_crc16]

/-- Settles O2: the byte step loses no bit of the register (`crcByte_left_injective`), and there are finitely many
registers. -/
theorem crcByteStepIsABijectionOnRegisters : Obligations.CrcByteStepIsABijectionOnRegisters := by
  refine ⟨rfl, fun b => Finite.injective_iff_bijective.mp (crcByte_left_injective b), fun r b => ?_⟩
  rw [crcByte_eq_iterate, crcByte_eq_iterate]
  simp

/-! ### VALIDATE (43 R140 to R146) -/

/-- A 16-bit field as a number, low byte first. -/
theorem le16_toNat (r : List Byte) (i : Nat) :
    (le16 r i).toNat = (byteAt r i).toNat + 256 * (byteAt r (i + 1)).toNat := by
  rw [le16_eq_append, BitVec.toNat_append, ← Nat.shiftLeft_add_eq_or_of_lt (byteAt r i).isLt, Nat.shiftLeft_eq]
  omega

/-- The checksum check on numbers (R144). -/
theorem le16_eq_crc16_iff (r : List Byte) (l : Nat) :
    crc16 (slice r 1 (7 + l)) = le16 r (7 + l) ↔
      (byteAt r (7 + l)).toNat + 256 * (byteAt r (8 + l)).toNat = Reference.crc 0xFFFF ((r.drop 1).take (6 + l)) := by
  have hslice : slice r 1 (7 + l) = (r.drop 1).take (6 + l) := by rw [slice]; congr 1; omega
  rw [← hslice, ← crc16_toNat, ← BitVec.toNat_inj, le16_toNat, show 7 + l + 1 = 8 + l by omega]
  exact eq_comm

/-- A candidate with its tail and checksum passes every check. -/
theorem validate_passes {c : List Byte} (h : FullCandidate c) (htail : byteAt c (9 + (byteAt c 1).toNat) = tailByte)
    (hcrc : crc16 (slice c 1 (7 + (byteAt c 1).toNat)) = le16 c (7 + (byteAt c 1).toNat)) :
    validate config c
      = .ok { type := byteAt c 2, timestamp := le32 c 3, payload := slice c 7 (7 + (byteAt c 1).toNat) } := by
  rw [validate_fullCandidate config h, bne_eq_false_iff_eq.mpr htail, bne_eq_false_iff_eq.mpr hcrc]
  rfl

/-- Settles O5: one lemma per check (`validate_wrongSize`, `validate_badHeader`, `validate_badTail`,
`validate_crcMismatch`, `validate_passes`). -/
theorem validateReportsTheFirstFailingCheck : Obligations.ValidateReportsTheFirstFailingCheck := by
  intro r s
  simp only [at'_eq_byteAt, word_eq_le32, ne_eq, ← le16_eq_crc16_iff]
  refine ⟨_, exec_validate r s, validate_wrongSize, fun _ hsize => ⟨validate_badHeader hsize, fun h0 htail => ?_,
    fun h0 htail => ⟨fun hcrc => ?_, fun hcrc => ?_⟩⟩⟩
  · exact validate_badTail ⟨h0, hsize⟩ htail
  · exact validate_crcMismatch ⟨h0, hsize⟩ htail hcrc
  · rw [validate_passes ⟨h0, hsize⟩ htail hcrc, slice, Nat.add_sub_cancel_left]

end Sys2Proof

/-! PROOFS. The FRAME rows (30_encoding.md R71, 41_payload_codec.md): a frame arriving whole is the FEED of its bytes,
is decoded by its kind's rule, or rejected for its tail or checksum. -/

namespace Sys2Proof

open Sys2Proof.Machine Sys2Proof.Reference

/-! ### A row is the FEED of its bytes (log 3, 4) -/

/-- Settles O41: the row of a code feeds the frame of that code (`exec_frameInstr`). -/
theorem frameRowsAreTheFeedOfTheirBytes : Obligations.FrameRowsAreTheFeedOfTheirBytes := by
  intro code ts p crcField tail s
  rw [exec_frameInstr, codeOf_kindOf, candidate_eq_frameBytes]
  rfl

/-- Settles O42: a chunk that is no candidate is a FEED; a full candidate is the row of its fields, whose bytes it is
(`eq_frameBytes`). -/
theorem aChunkOnTheWireIsItsFeed : Obligations.AChunkOnTheWireIsItsFeed := by
  intro chunk s
  cases hr : decodeFrame chunk with
  | error e => rw [decode, hr]
  | ok i =>
    have hfull := decodeFrame_ok hr
    rw [decode_wire_full hfull, exec_frameInstr, codeOf_kindOf, ← eq_frameBytes hfull.1 hfull.2]
    rfl

/-! ### A good frame (41 R103 to R107) -/

theorem checksum_body (code : Byte) (ts : U32) (p : List Byte) :
    Reference.checksum (body code ts.toNat p) = crc16 (frameBody code ts p) := by
  rw [checksum_eq_crc16, body_toNat]

/-- A frame with its checksum and tail, arriving whole on an empty buffer, is one packet of its kind. -/
theorem exec_frameInstr_good (code : Byte) (ts : U32) {p : List Byte} {s : State} (hbuf : s.buf = [])
    (hfits : p.length ≤ 255) (hmin : minLen code ≤ p.length) :
    exec (frameInstr (kindOf code) ts p (Reference.checksum (body code ts.toNat p)) 0x55) s
      = .next (answers s (.outcomes [.decoded { kind := kindOf code, timestamp := ts, fields := variant code p }])) := by
  have hframe : candidate code ts p (Reference.checksum (body code ts.toNat p)) 0x55 = frame code ts.toNat p := by
    rw [candidate_eq_frameBytes, checksum_body, frame_toNat]
    rfl
  have hdec := resolveFrom_frame_only code ts.toNat hfits hmin
  rw [BitVec.ofNat_toNat, BitVec.setWidth_eq] at hdec
  rw [frameRowsAreTheFeedOfTheirBytes, hframe]
  exact exec_feed_of_consumed hbuf hdec

/-- The same for a code without a layout: every payload is decoded to its bytes. -/
theorem exec_frameInstr_raw {code : Byte} (ts : U32) {p : List Byte} {s : State} (hbuf : s.buf = [])
    (hfits : p.length ≤ 255) (h1 : code ≠ 0x10) (h2 : code ≠ 0x30) (h3 : code ≠ 0x90) :
    exec (frameInstr (kindOf code) ts p (Reference.checksum (body code ts.toNat p)) 0x55) s
      = .next (answers s (.outcomes [.decoded { kind := kindOf code, timestamp := ts, fields := .raw p }])) := by
  rw [exec_frameInstr_good code ts hbuf hfits (minLen_raw h1 h2 h3 ▸ Nat.zero_le _), variant_raw p h1 h2 h3]

/-- Settles O36: none of the eight codes and no unnamed code has a layout. -/
theorem rawFrameRowsDecodeToTheirBytes : Obligations.RawFrameRowsDecodeToTheirBytes := by
  intro ts p s hbuf hfits
  have row {code : Byte} (h : code ≠ 0x10 ∧ code ≠ 0x30 ∧ code ≠ 0x90) :=
    exec_frameInstr_raw ts hbuf hfits h.1 h.2.1 h.2.2
  refine ⟨row (code := 0x00) (by decide), row (code := 0x20) (by decide), row (code := 0x21) (by decide),
    row (code := 0x31) (by decide), row (code := 0x32) (by decide), row (code := 0x40) (by decide),
    row (code := 0x50) (by decide), row (code := 0x80) (by decide), fun c hc => ?_⟩
  have hlayout : c ≠ 0x10 ∧ c ≠ 0x30 ∧ c ≠ 0x90 := by
    refine ⟨?_, ?_, ?_⟩ <;> rintro rfl <;> exact hc (by decide)
  have hunknown := row hlayout
  rwa [kindOf_unnamed hc] at hunknown

/-- Settles O37: the fields are the variant of type code 0x10. -/
theorem statusFrameRowDecodesItsFields : Obligations.StatusFrameRowDecodesItsFields :=
  fun ts _ _ hbuf hmin hfits => exec_frameInstr_good 0x10 ts hbuf hfits hmin

/-- Settles O38: the fields are the variant of type code 0x30. -/
theorem forceControlFrameRowDecodesItsFields : Obligations.ForceControlFrameRowDecodesItsFields :=
  fun ts _ _ hbuf hmin hfits => exec_frameInstr_good 0x30 ts hbuf hfits hmin

/-- Settles O39: the fields are the variant of type code 0x90. -/
theorem heartbeatFrameRowDecodesItsFields : Obligations.HeartbeatFrameRowDecodesItsFields :=
  fun ts _ _ hbuf hmin hfits => exec_frameInstr_good 0x90 ts hbuf hfits hmin

/-! ### A frame with a wrong tail or checksum (60 R173, R175) -/

/-- The tail is checked before the checksum (43 R146, log 6). -/
theorem validate_frameBytes_wrong (code : Byte) (ts : U32) {p : List Byte} {crcField : U16} {tail : Byte}
    (hfits : p.length ≤ 255) (h : tail ≠ tailByte ∨ crcField ≠ crc16 (frameBody code ts p)) :
    validate config (frameBytes code ts p crcField tail)
      = .error (if tail = tailByte then .crcMismatch else .badTail) := by
  rw [validate_frameBytes config code ts p crcField tail hfits]
  split_ifs with htail
  · have hcrc := h.resolve_left (not_not_intro htail)
    rw [bne_eq_false_iff_eq.mpr htail, bne_iff_ne.mpr hcrc.symm]
    rfl
  · rw [bne_iff_ne.mpr htail]
    rfl

/-- Settles O40: the refused frame is the first outcome (`resolveFrom_refused`). -/
theorem frameRowsRejectAWrongTailOrChecksum : Obligations.FrameRowsRejectAWrongTailOrChecksum := by
  intro code ts p crcField tail s hbuf hfits hwrong
  rw [checksum_body] at hwrong
  have hrefused := resolveFrom_refused (frameBytes_full code ts p crcField tail hfits)
    (validate_frameBytes_wrong code ts hfits hwrong) []
  rw [List.append_nil] at hrefused
  rw [frameRowsAreTheFeedOfTheirBytes, candidate_eq_frameBytes, exec_feed, hbuf, List.nil_append, hrefused]
  exact ⟨_, _, rfl⟩

end Sys2Proof

/-! PROOFS. What every operation keeps (10_state.md, 20_memory.md): the buffer at rest, its bytes in order, the other
engines untouched. -/

namespace Sys2Proof

open Sys2Proof.Machine Sys2Proof.Reference

/-! ### The at-rest form (10 R23) -/

/-- Settles O45: the reset state holds no byte, no call and no result. -/
theorem resetStateIsSafe : Obligations.ResetStateIsSafe :=
  ⟨reset_wf, State.reset_port, State.reset_returned⟩

/-- An operation answers without the buffer, feeds it, or empties it (`exec_cases`). -/
theorem exec_keeps_safe {i : Instr} {s t : State} (h : Safe s) (hexec : exec i s = .next t) : Safe t := by
  by_cases hi : i = .reservedCmd7
  · subst hi; cases hexec
  · rcases exec_cases hi s with ⟨v, hv⟩ | ⟨chunk, hfeed⟩ | hreset
    · rw [hv] at hexec; cases hexec; exact h
    · rw [hfeed] at hexec; cases hexec; exact feed_wf config s.buf chunk
    · rw [hreset] at hexec; cases hexec; rfl

/-- Settles O48: a step is nothing, or the operation of the oldest call on the same buffer (`exec_keeps_safe`). -/
theorem everyStepKeepsTheAtRestForm : Obligations.EveryStepKeepsTheAtRestForm := by
  intro s t hsafe hstep
  cases hport : s.port with
  | nil => rw [step_nil hport] at hstep; cases hstep; exact hsafe
  | cons x rest =>
    rw [step_cons hport] at hstep
    exact exec_keeps_safe (s := { s with port := rest }) hsafe hstep

/-- A buffer at rest is empty, or starts with the header and is shorter than its candidate. -/
theorem atRest_iff (w : List Byte) : atRest w = true ↔ w = [] ∨ IsPartial w := by
  constructor
  · intro h
    cases w with
    | nil => exact .inl rfl
    | cons b rest =>
      simp only [atRest, List.isEmpty_cons, Bool.false_or, Bool.and_eq_true, beq_iff_eq, Bool.or_eq_true,
        decide_eq_true_eq, byteAt_cons_zero] at h
      obtain ⟨hheader, hshort⟩ := h
      exact .inr ⟨congrArg some hheader, by rwa [at'_eq_byteAt]⟩
  · rintro (rfl | h)
    · rfl
    · exact atRest_of_isPartial h

/-- The largest candidate has 265 bytes (00_scope.md R8). -/
theorem length_le_of_atRest {w : List Byte} (h : atRest w = true) : w.length ≤ 264 := by
  rcases (atRest_iff w).mp h with rfl | ⟨-, hshort⟩
  · exact Nat.zero_le _
  · omega

theorem safe_of_reachable {s : State} (h : Reachable s) : Safe s := by
  induction h with
  | created => exact resetStateIsSafe.1
  | posted x _ ih => exact ih
  | stepped _ hstep ih => exact everyStepKeepsTheAtRestForm _ _ ih hstep

/-- Settles O49: what every step keeps holds of every reachable state, and a buffer at rest is short
(`length_le_of_atRest`). -/
theorem reachableBuffersHoldAtMost264Bytes : Obligations.ReachableBuffersHoldAtMost264Bytes :=
  fun _ h => ⟨safe_of_reachable h, length_le_of_atRest (safe_of_reachable h)⟩

/-- Settles O50: the loop ends at rest (`feed_wf`), and at rest it waits (`resolveFrom_atRest`). -/
theorem feedLeavesAnAtRestBufferForAnyConfig : Obligations.FeedLeavesAnAtRestBufferForAnyConfig := by
  intro cfg buf chunk
  refine ⟨feed_wf cfg buf chunk, fun hrest => ?_⟩
  rw [feed, appendChunk, List.append_nil, resolveFrom_atRest cfg hrest]

/-! ### The bytes of the buffer (20 R40, R47) -/

/-- A receiving operation is the FEED of what it brings. -/
theorem exec_receiving {i : Instr} (h : isReceiving i = true) (s : State) :
    exec i s = .next (s.feed (arriving i)) := by
  cases i with
  | push b => rfl
  | feed chunk => rfl
  | crc16 data => cases h
  | validate r => cases h
  | decode code p => cases h
  | encode code f nowMs => cases h
  | reset => cases h
  | reservedCmd7 => cases h
  | _ => rw [arriving, candidate_eq_frameBytes]; rfl

/-- Settles O47: what stays is the end of the appended buffer (`resolveFrom_suffix`), so each byte is read where it
stood, counted from the end. -/
theorem receivingOnlyAppendsAndDropsFromTheFront : Obligations.ReceivingOnlyAppendsAndDropsFromTheFront := by
  intro i s hi
  refine ⟨_, _, exec_receiving hi s, State.feed_port .., State.feed_returned .., ?_⟩
  rw [State.feed_buf, feed, appendChunk]
  obtain ⟨front, hfront⟩ := resolveFrom_suffix config (s.buf ++ arriving i)
  generalize (resolveFrom config 0 (s.buf ++ arriving i)).2 = kept at hfront
  rw [hfront, List.length_append, Nat.add_sub_cancel]
  refine ⟨Nat.le_add_left _ _, fun a => ?_⟩
  rw [readByte, readByte, List.getElem?_append_right (Nat.le_add_left _ _), Nat.add_sub_cancel]

/-! ### RESET and the other engines (44 R160, 10 R33) -/

/-- Settles O43: after RESET the state is that of a fresh engine with the same calls. -/
theorem resetErasesWhatWasFed : Obligations.ResetErasesWhatWasFed := by
  intro s
  refine ⟨rfl, fun t i hreset => ?_⟩
  cases hreset
  rfl

/-- Settles O53: only place `k` of the list is written. -/
theorem instancesShareNothing : Obligations.InstancesShareNothing := by
  intro l m k hstep
  rw [stepInstance] at hstep
  cases hk : step l[k] with
  | fault r => cases r
  | refused r => rw [hk] at hstep; cases hstep
  | next t =>
    rw [hk] at hstep
    cases hstep
    refine ⟨t, rfl, List.length_set, List.getElem?_set_self k.isLt, fun j hj => ?_⟩
    exact List.getElem?_set_ne hj.symm

end Sys2Proof

/-! PROOFS. FEED and PUSH (42_frame_assembler.md): what is passed over, rejected, consumed; the chunk boundaries; the
choices of an implementation that no packet depends on. -/

namespace Sys2Proof

open Sys2Proof.Machine Sys2Proof.Reference

/-! ### The front of the stream (42 R122, R127, R128, R139) -/

/-- FEED on an empty buffer. -/
theorem exec_feed_fresh (w : List Byte) (s : State) :
    exec (.feed w) { s with buf := [] } = .next (leaves s (resolveFrom config 0 w).2 (resolveFrom config 0 w).1) :=
  exec_feed w { s with buf := [] }

/-- Settles O20: SCAN passes over the noise (`resolveFrom_noise`), and nothing is left of it. -/
theorem bytesBeforeAHeaderLeaveNoTrace : Obligations.BytesBeforeAHeaderLeaveNoTrace := by
  intro chunk noise w s hstream hnoise
  have hfeed : exec (.feed chunk) s = exec (.feed w) { s with buf := [] } := by
    rw [exec_feed, hstream, resolveFrom_noise config hnoise, exec_feed_fresh]
  refine ⟨hfeed, fun hw => ?_⟩
  rw [hfeed, hw, exec_feed_fresh, resolveFrom_atRest config rfl]

/-- Settles O23: the rejection moves `off` by one (`resolveFrom_refused`). -/
theorem feedRejectsAndRescansFromTheNextByte : Obligations.FeedRejectsAndRescansFromTheNextByte := by
  intro chunk c rest s reason hstream hc hrefused
  refine ⟨_, _, exec_feed_fresh (c.drop 1 ++ rest) s, ?_⟩
  rw [exec_feed, hstream, resolveFrom_refused ((isCandidate_iff c).mp hc) hrefused]

/-- No layout has more than 24 bytes. -/
theorem minLen_le (code : Byte) : minLen code ≤ 24 := by
  rw [minLen]
  split_ifs <;> decide

/-- Settles O24: the Validator accepts the frame, the codec refuses its payload, and the rejection moves `off` by the
whole frame (`resolveFrom_truncated`). -/
theorem feedConsumesATruncatedPayloadWhole : Obligations.FeedConsumesATruncatedPayloadWhole := by
  intro chunk rest code ms p s hstream hshort
  have hfits : p.length ≤ 255 := by have := minLen_le code; omega
  refine ⟨_, _, exec_feed_fresh rest s, ?_⟩
  rw [exec_feed, hstream, resolveFrom_truncated (validate_frame code ms hfits)
    ((decodePayload_eq_truncated_iff code p).mpr hshort)]

theorem frame_length (code : Byte) (ms : Nat) (p : List Byte) : (frame code ms p).length = 10 + p.length := by
  rw [frame_eq_buildFrame, buildFrame, frameBytes_length]

/-- Settles O34: the corrupted frame is refused for its checksum (`validate_set_between`), what follows its header is
noise, and then the second frame is read. -/
theorem resyncAfterOneCorruptedByte : Obligations.ResyncAfterOneCorruptedByte := by
  intro c₁ c₂ m₁ m₂ p₁ p₂ i b s hfits₁ hfits₂ hmin₂ hi hlast hb hnoise hbuf
  have hv := validate_frame c₁ m₁ hfits₁
  have hfull : FullCandidate (frame c₁ m₁ p₁) := validate_ok_form hv
  have hwrong := validate_set_between hv hi (by rw [frame_length]; omega) (at'_eq_byteAt .. ▸ hb)
  apply exec_feed_of_consumed hbuf
  rw [resolveFrom_refused (fullCandidate_set b hfull hi) hwrong, resolveFrom_noise config hnoise,
    resolveFrom_frame_only c₂ m₂ hfits₂ hmin₂]

/-! ### Chunk boundaries (42 R131) -/

/-- The loop on a longer stream first does what it does on the shorter one, then goes on from what stayed. -/
theorem resolveFrom_append (cfg : Config) (w w' : List Byte) :
    resolveFrom cfg 0 (w ++ w') =
      ((resolveFrom cfg 0 w).1 ++ (resolveFrom cfg 0 ((resolveFrom cfg 0 w).2 ++ w')).1,
        (resolveFrom cfg 0 ((resolveFrom cfg 0 w).2 ++ w')).2) := by
  induction w using stream_induction cfg with
  | rest noise w hn hw =>
    rw [List.append_assoc, resolveFrom_noise cfg hn, resolveFrom_noise cfg hn, resolveFrom_atRest cfg hw]
    rfl
  | candidate noise c w hn hc ih =>
    rw [List.append_assoc, List.append_assoc, resolveFrom_noise cfg hn, resolveFrom_noise cfg hn,
      resolveFrom_candidate cfg hc, resolveFrom_candidate cfg hc, ← List.append_assoc, ih]
    rfl

/-- Settles O26: FEED is the loop on the appended buffer (`resolveFrom_append`). -/
theorem chunkBoundariesDoNotMatterForAnyConfig : Obligations.ChunkBoundariesDoNotMatterForAnyConfig := by
  intro cfg buf c₁ c₂
  simp only [feed, appendChunk]
  rw [← List.append_assoc, resolveFrom_append]

/-- Settles O25: the same at the operation. -/
theorem chunkBoundariesDoNotMatter : Obligations.ChunkBoundariesDoNotMatter := by
  intro c₁ c₂ s
  refine ⟨_, _, _, _, exec_feed c₁ s, exec_feed c₂ _, ?_⟩
  rw [exec_feed, ← List.append_assoc, resolveFrom_append]
  rfl

/-! ### PUSH (42 R130, 30 R83) -/

theorem exec_push (b : Byte) (s : State) : exec (.push b) s = exec (.feed [b]) s := rfl

theorem pushAll_cons (b : Byte) (rest : List Byte) (s : State) :
    pushAll (b :: rest) s = (pushAll rest (s.feed [b])).map
      fun r => ((resolveFrom config 0 (s.buf ++ [b])).1 ++ r.1, r.2) := rfl

/-- Settles O27, by induction on the chunk: a first PUSH and the rest are the two parts of the chunk
(`resolveFrom_append`), and the buffer between them is at rest. -/
theorem feedIsOnePushPerByte : Obligations.FeedIsOnePushPerByte := by
  intro chunk s hsafe
  refine ⟨_, _, ?_, exec_feed chunk s⟩
  induction chunk generalizing s with
  | nil => rw [List.append_nil, resolveFrom_atRest config hsafe]; rfl
  | cons b rest ih =>
    have happend := resolveFrom_append config (s.buf ++ [b]) rest
    rw [List.append_assoc, List.singleton_append] at happend
    rw [pushAll_cons, ih (s.feed [b]) (feed_wf config s.buf [b]), happend]
    rfl

theorem at'_append_of_lt {buf : List Byte} (b : Byte) {i : Nat} (h : i < buf.length) :
    at' (buf ++ [b]) i = at' buf i := by
  rw [at'_eq_byteAt, at'_eq_byteAt, byteAt_append_left [b] h]

/-- A buffer that starts with the header still does with a byte more. -/
theorem getElem?_zero_append {buf : List Byte} (b : Byte) (h : buf[0]? = some 0xAA) :
    (buf ++ [b])[0]? = some 0xAA ∧ 0 < buf.length := by
  obtain ⟨hpos, -⟩ := List.getElem?_eq_some_iff.mp h
  exact ⟨by rw [List.getElem?_append_left hpos, h], hpos⟩

/-- A byte more, while the candidate is at least two bytes short. -/
theorem isPartial_push {buf : List Byte} (b : Byte) (h : IsPartial buf)
    (hshort : buf.length < 2 ∨ buf.length < 9 + (at' buf 1).toNat) : IsPartial (buf ++ [b]) := by
  obtain ⟨h0, hpos⟩ := getElem?_zero_append b h.1
  refine ⟨h0, .inr ?_⟩
  rw [List.length_append, List.length_singleton]
  by_cases hone : buf.length < 2
  · omega
  · rw [at'_append_of_lt b (by omega)]; omega

/-- The last byte of the candidate. -/
theorem isCandidate_push {buf : List Byte} (b : Byte) (h : IsPartial buf) (htwo : 2 ≤ buf.length)
    (hlast : 9 + (at' buf 1).toNat ≤ buf.length) : IsCandidate (buf ++ [b]) := by
  obtain ⟨h0, hshort⟩ := h
  have hheader : at' (buf ++ [b]) 0 = 0xAA := by rw [at', (getElem?_zero_append b h0).1]; rfl
  refine ⟨hheader, ?_⟩
  rw [at'_append_of_lt b (by omega), List.length_append, List.length_singleton]
  omega

/-- A byte pushed at rest is passed over, kept, or completes the candidate. -/
theorem push_cases {buf : List Byte} (h : atRest buf = true) (b : Byte) :
    (buf = [] ∧ b ≠ 0xAA) ∨ IsPartial (buf ++ [b]) ∨ IsCandidate (buf ++ [b]) := by
  rcases (atRest_iff buf).mp h with rfl | hpartial
  · by_cases hb : b = 0xAA
    · exact .inr (.inl ⟨congrArg some hb, .inl Nat.one_lt_two⟩)
    · exact .inl ⟨rfl, hb⟩
  · by_cases hshort : buf.length < 2 ∨ buf.length < 9 + (at' buf 1).toNat
    · exact .inr (.inl (isPartial_push b hpartial hshort))
    · exact .inr (.inr (isCandidate_push b hpartial (by omega) (by omega)))

/-- What the loop does when a pushed byte completes the candidate. -/
theorem resolveFrom_whole {c : List Byte} (h : FullCandidate c) :
    resolveFrom config 0 c =
      ((resolve config c).outcome :: (resolveFrom config 0 (c.drop (resolve config c).advance)).1,
        (resolveFrom config 0 (c.drop (resolve config c).advance)).2) := by
  simpa using resolveFrom_candidate config h []

theorem resolveFrom_nil (cfg : Config) (k : Nat) : resolveFrom cfg k [] = ([], []) := by
  cases k <;> rfl

/-- A byte that is not the header, on an empty buffer. -/
theorem exec_push_noise {b : Byte} {s : State} (hbuf : s.buf = []) (hb : b ≠ 0xAA) :
    exec (.push b) s = .next (answers s (.outcomes [])) := by
  have hnoise : ∀ x ∈ [b], x ≠ header := fun x hx => List.mem_singleton.mp hx ▸ hb
  exact exec_feed_of_consumed hbuf (resolveFrom_noise config hnoise [])

theorem exec_push_kept {b : Byte} {s : State} (h : IsPartial (s.buf ++ [b])) :
    exec (.push b) s = .next (leaves s (s.buf ++ [b]) []) := by
  rw [exec_push, exec_feed, resolveFrom_atRest config (atRest_of_isPartial h)]

theorem exec_push_completes {b : Byte} {s : State} (h : IsCandidate (s.buf ++ [b])) :
    ∃ outs buf, exec (.push b) s = .next (leaves s buf ((resolve config (s.buf ++ [b])).outcome :: outs)) ∧
      (outs, buf) = resolveFrom config 0 ((s.buf ++ [b]).drop (resolve config (s.buf ++ [b])).advance) := by
  refine ⟨_, _, ?_, rfl⟩
  rw [exec_push, exec_feed, resolveFrom_whole ((isCandidate_iff _).mp h)]

/-- A verdict that consumes the whole candidate is the only outcome. -/
theorem exec_push_consumed {b : Byte} {s : State} {o : FeedOutcome} (h : IsCandidate (s.buf ++ [b]))
    (hv : resolve config (s.buf ++ [b]) = { outcome := o, advance := (s.buf ++ [b]).length }) :
    exec (.push b) s = .next (leaves s [] [o]) := by
  obtain ⟨outs, buf, hpush, hrest⟩ := exec_push_completes h
  rw [hv, List.drop_length, resolveFrom_nil] at hrest
  cases hrest
  rw [hpush, hv]

/-- Settles O28: the three cases of `push_cases`, and for a completed candidate the three verdicts of `resolve`. -/
theorem pushKeepsAByteOrJudgesTheFrontCandidate : Obligations.PushKeepsAByteOrJudgesTheFrontCandidate := by
  intro b s hsafe
  refine ⟨exec_push_noise, exec_push_kept, fun hc => ⟨fun v f hv hf => ?_, fun v e hv he => ?_, fun e hv => ?_⟩,
    push_cases hsafe b⟩
  · exact exec_push_consumed hc (resolve_accepted hv hf)
  · exact exec_push_consumed hc (resolve_truncated hv he)
  · obtain ⟨outs, buf, hpush, -⟩ := exec_push_completes hc
    rw [resolve_refused hv] at hpush
    exact ⟨outs, buf, hpush⟩

/-! ### The phase (10 R22, 42 R132) -/

theorem phase_readLength {w : List Byte} (h : w.length = 1) : phase w = .readLength := by
  simp [phase, h]

theorem phase_readType {w : List Byte} (h : w.length = 2) : phase w = .readType := by
  simp [phase, h]

theorem phase_readTimestamp {w : List Byte} (h3 : 3 ≤ w.length) (h6 : w.length ≤ 6) : phase w = .readTimestamp := by
  grind [phase]

theorem phase_readPayload {w : List Byte} (h7 : 7 ≤ w.length) (h : w.length < 7 + (at' w 1).toNat) :
    phase w = .readPayload := by
  grind [phase, declaredLength, at'_eq_byteAt]

theorem phase_readCrc {w : List Byte} (h7 : 7 + (at' w 1).toNat ≤ w.length) (h : w.length < 9 + (at' w 1).toNat) :
    phase w = .readCrc := by
  grind [phase, declaredLength, at'_eq_byteAt]

theorem phase_readTail {w : List Byte} (h : w.length = 9 + (at' w 1).toNat) : phase w = .readTail := by
  grind [phase, declaredLength, at'_eq_byteAt]

/-- A buffer at rest waits for a byte (10 R23). -/
theorem phase_ne_resolve {w : List Byte} (h : atRest w = true) : phase w ≠ .resolve := by
  rcases (atRest_iff w).mp h with rfl | ⟨-, hshort⟩
  · decide
  · grind [phase, declaredLength, at'_eq_byteAt]

/-- The phases before and after a byte that is kept: each byte leads to the field behind it. -/
theorem phase_push (buf : List Byte) (b : Byte) :
    let n := buf.length
    let len := (at' buf 1).toNat
    let w := buf ++ [b]
    (n = 1 → phase buf = .readLength ∧ phase w = .readType ∧ at' w 1 = b) ∧
      (n = 2 → phase buf = .readType ∧ phase w = .readTimestamp) ∧
      (3 ≤ n → n ≤ 5 → phase buf = .readTimestamp ∧ phase w = .readTimestamp) ∧
      (n = 6 → phase buf = .readTimestamp ∧ phase w = if 0 < len then .readPayload else .readCrc) ∧
      (7 ≤ n → n < 6 + len → phase buf = .readPayload ∧ phase w = .readPayload) ∧
      (7 ≤ n → n = 6 + len → phase buf = .readPayload ∧ phase w = .readCrc) ∧
      (7 ≤ n → n = 7 + len → phase buf = .readCrc ∧ phase w = .readCrc) ∧
      (8 ≤ n → n = 8 + len → phase buf = .readCrc ∧ phase w = .readTail) := by
  intro n len w
  have hw : w.length = n + 1 := by simp [w, n]
  have hlen (h2 : 2 ≤ n) : (at' w 1).toNat = len := by rw [at'_append_of_lt b h2]
  refine ⟨fun hn => ⟨phase_readLength hn, phase_readType (by omega), ?_⟩,
    fun hn => ⟨phase_readType hn, phase_readTimestamp (by omega) (by omega)⟩,
    fun h3 h5 => ⟨phase_readTimestamp h3 (by omega), phase_readTimestamp (by omega) (by omega)⟩,
    fun hn => ⟨phase_readTimestamp (by omega) (by omega), ?_⟩,
    fun h7 hn => ⟨phase_readPayload h7 (by omega), phase_readPayload (by omega) (by omega)⟩,
    fun h7 hn => ⟨phase_readPayload h7 (by omega), phase_readCrc (by omega) (by omega)⟩,
    fun h7 hn => ⟨phase_readCrc (by omega) (by omega), phase_readCrc (by omega) (by omega)⟩,
    fun h8 hn => ⟨phase_readCrc (by omega) (by omega), phase_readTail (by omega)⟩⟩
  · rw [at'_eq_byteAt, byteAt_append_right [b] (Nat.le_of_eq hn), show buf.length = 1 from hn]
    rfl
  · split_ifs with hpos
    · exact phase_readPayload (by omega) (by omega)
    · exact phase_readCrc (by omega) (by omega)

/-- Settles O29: the empty buffer, the kept bytes (`phase_push`), and the tail byte, which completes the candidate and
leaves a buffer at rest. -/
theorem phaseAdvancesByteByByte : Obligations.PhaseAdvancesByteByByte := by
  intro b s hsafe n len
  rcases (atRest_iff s.buf).mp hsafe with hempty | hpartial
  · have hn : n = 0 := congrArg List.length hempty
    have hphase : phase s.buf = .seekHeader := hempty ▸ phase_nil
    by_cases hb : b = 0xAA
    · have hkept : IsPartial (s.buf ++ [b]) := by
        rw [hempty]; exact ⟨congrArg some hb, .inl Nat.one_lt_two⟩
      refine ⟨_, _, exec_push_kept hkept, rfl, fun _ => rfl, fun _ => ⟨hphase, ?_⟩, ?_⟩
      · rw [if_pos hb]; exact phase_readLength (List.length_append.trans (congrArg (·.length + 1) hempty))
      · omega
    · refine ⟨_, _, exec_push_noise hempty hb, rfl, fun _ => rfl, fun _ => ⟨hphase, ?_⟩, ?_⟩
      · rw [if_neg hb]; exact hphase
      · omega
  · have hpos : 0 < n := (getElem?_zero_append b hpartial.1).2
    by_cases hshort : n < 2 ∨ n < 9 + len
    · obtain ⟨h1, h2, h5, h6, hpayload, hend, hcrc, htail⟩ := phase_push s.buf b
      exact ⟨_, _, exec_push_kept (isPartial_push b hpartial hshort), rfl, fun _ => rfl, by omega, h1, h2, h5, h6,
        hpayload, hend, hcrc, htail, by omega⟩
    · have hlast : n = 9 + len := by obtain ⟨-, h⟩ := hpartial; omega
      obtain ⟨outs, buf, hpush, hrest⟩ := exec_push_completes (isCandidate_push b hpartial (by omega) hlast.ge)
      have hrests : atRest buf = true := by
        have hwf := resolveFrom_wf config 0 ((s.buf ++ [b]).drop (resolve config (s.buf ++ [b])).advance)
        rwa [← hrest] at hwf
      exact ⟨_, _, hpush, rfl, by omega, by omega, by omega, by omega, by omega, by omega, by omega, by omega, by omega,
        by omega, fun _ _ => ⟨phase_readTail hlast, List.cons_ne_nil _ _, phase_ne_resolve hrests⟩⟩

/-! ### How many outcomes (70_reset_and_hazards.md R216) -/

/-- A resolved candidate has its header behind it. -/
theorem count_drop_lt {c : List Byte} (h : FullCandidate c) {k : Nat} (hk : 1 ≤ k) :
    (c.drop k).count header < c.count header := by
  cases c with
  | nil => exact absurd h.length_pos (by decide)
  | cons b rest =>
    have hb : b = header := h.1
    obtain ⟨k, rfl⟩ : ∃ j, k = j + 1 := ⟨k - 1, by omega⟩
    rw [List.drop_succ_cons, hb, List.count_cons_self, Nat.lt_succ_iff]
    exact (List.drop_sublist k rest).count_le header

/-- Every outcome uses up a header byte of the stream. -/
theorem resolveFrom_outcomes_le (cfg : Config) (w : List Byte) :
    (resolveFrom cfg 0 w).1.length ≤ w.count header := by
  induction w using stream_induction cfg with
  | rest noise w hn hw => rw [resolveFrom_noise cfg hn, resolveFrom_atRest cfg hw]; exact Nat.zero_le _
  | candidate noise c w hn hc ih =>
    have hheader := count_drop_lt hc (resolve_advance cfg hc.length_pos).1
    rw [List.count_append] at ih
    rw [resolveFrom_noise cfg hn, resolveFrom_candidate cfg hc, List.length_cons, List.count_append, List.count_append]
    omega

/-- Settles O32: at rest there are at most 264 bytes (`length_le_of_atRest`), and the pushed one is one more. -/
theorem outcomesAreAtMostTheHeaderBytes : Obligations.OutcomesAreAtMostTheHeaderBytes := by
  have hfeed (chunk : List Byte) (s t : State) (outs : List FeedOutcome) (hexec : exec (.feed chunk) s = .next t)
      (hret : t.returned = .outcomes outs) : outs.length ≤ (s.buf ++ chunk).count 0xAA := by
    rw [exec_feed] at hexec
    cases hexec
    cases hret
    exact resolveFrom_outcomes_le config (s.buf ++ chunk)
  refine ⟨hfeed, fun b s t outs hsafe hexec hret => ?_⟩
  calc outs.length ≤ (s.buf ++ [b]).count 0xAA := hfeed [b] s t outs hexec hret
    _ ≤ (s.buf ++ [b]).length := List.count_le_length
    _ = s.buf.length + 1 := List.length_append
    _ ≤ 265 := Nat.succ_le_succ (length_le_of_atRest hsafe)

/-! ### What no packet depends on (92_eei_decisions.md D5, D6) -/

/-- What VALIDATE accepts does not depend on the order of its checks. -/
theorem validate_ok_any_config {cfg : Config} (cfg' : Config) {c : List Byte} {v : Validated}
    (h : validate cfg c = .ok v) : validate cfg' c = .ok v :=
  (validate_eq_ok_iff cfg' c v).mpr ((validate_eq_ok_iff cfg c v).mp h)

/-- The verdicts of two configurations that differ in the order of the checks and in raw_bytes only: the same movement,
the same packet. -/
theorem resolve_other (cfg : Config) (order : RejectOrder) (raw : RawBytesOf) (c : List Byte) :
    let other := { cfg with rejectOrder := order, rawBytesOf := raw }
    (resolve other c).advance = (resolve cfg c).advance ∧
      packetOf (resolve other c).outcome = packetOf (resolve cfg c).outcome := by
  intro other
  have hcodec (code : Byte) (p : List Byte) : decodePayload other code p = decodePayload cfg code p := rfl
  cases hv : validate cfg c with
  | ok v =>
    have hother := validate_ok_any_config other hv
    cases hd : decodePayload cfg v.type v.payload with
    | ok f => simp only [resolve, hv, hother, hcodec, hd, and_self]
    | error e =>
      simp only [resolve, hv, hother, hcodec, hd]
      exact ⟨rfl, rfl⟩
  | error e =>
    cases hother : validate other c with
    | ok v => rw [validate_ok_any_config cfg hother] at hv; cases hv
    | error e' =>
      simp only [resolve, hv, hother]
      exact ⟨rfl, rfl⟩

/-- Settles O35, by induction along the loop: both loops take the same candidates (`resolve_other`). -/
theorem packetsDoNotDependOnRejectOrderOrRawBytes : Obligations.PacketsDoNotDependOnRejectOrderOrRawBytes := by
  intro cfg order raw buf chunk other
  rw [feed, feed]
  induction appendChunk buf chunk using stream_induction cfg with
  | rest noise w hn hw =>
    rw [resolveFrom_noise other hn, resolveFrom_noise cfg hn, resolveFrom_atRest other hw, resolveFrom_atRest cfg hw]
    exact ⟨rfl, rfl⟩
  | candidate noise c w hn hc ih =>
    obtain ⟨hadvance, hpacket⟩ := resolve_other cfg order raw c
    obtain ⟨hbuf, houts⟩ := ih
    rw [resolveFrom_noise other hn, resolveFrom_noise cfg hn, resolveFrom_candidate other hc,
      resolveFrom_candidate cfg hc, hadvance, List.map_cons, List.map_cons, hpacket, houts, hbuf]
    exact ⟨rfl, rfl⟩

end Sys2Proof

/-! PROOFS. FEED on offsets (42_frame_assembler.md R120, R136): the spec's loop with an offset, and the places of the
stream that the outcomes judge. -/

namespace Sys2Proof

open Sys2Proof.Machine Sys2Proof.Reference

/-! ### Where the outcomes stand (20_memory.md R51, 42 R136) -/

/-- The verdict on a candidate at an offset judges it. -/
theorem judges_resolve {c : List Byte} (hc : FullCandidate c) (front rest : List Byte) :
    Judges (front ++ (c ++ rest)) front.length (resolve config c).outcome := by
  refine ⟨c, by simp, (isCandidate_iff c).mpr hc, ?_⟩
  cases hv : validate config c with
  | error e =>
    rw [resolve_refused hv]
    exact ⟨rfl, .inl rfl⟩
  | ok v =>
    cases hd : decodePayload config v.type v.payload with
    | error e =>
      rw [resolve_truncated hv hd]
      exact ⟨rfl, .inr ⟨v, rfl, hd⟩⟩
    | ok f =>
      rw [resolve_accepted hv hd]
      exact ⟨v, rfl, rfl, rfl, hd⟩

/-- The loop moves past the bytes an outcome consumes. -/
theorem span_le_advance {c : List Byte} (hc : FullCandidate c) (front rest : List Byte) :
    span (front ++ (c ++ rest)) front.length (resolve config c).outcome ≤ (resolve config c).advance := by
  have hadvance := (resolve_advance config hc.length_pos).1
  cases hv : validate config c with
  | error e => rw [resolve_refused hv]; exact Nat.le_refl 1
  | ok v =>
    cases hd : decodePayload config v.type v.payload with
    | error e => rw [resolve_truncated hv hd]; exact hc.length_pos
    | ok f =>
      have hsize : c.length = 10 + (byteAt c 1).toNat := hc.2
      have hlength : at' (front ++ (c ++ rest)) (front.length + 1) = byteAt c 1 := by
        rw [at'_eq_byteAt, byteAt_append_right _ (Nat.le_add_right _ _), Nat.add_sub_cancel_left,
          byteAt_append_left rest (by omega)]
      rw [resolve_accepted hv hd, span, hlength, hsize]

/-- Behind any front, the outcomes of the loop judge candidates at offsets from there on, each behind the span of the
one before. -/
theorem resolveFrom_judges (w front : List Byte) :
    ∃ offs, List.Forall₂ (Judges (front ++ w)) offs (resolveFrom config 0 w).1 ∧
      (∀ x ∈ offs.zip (resolveFrom config 0 w).1, front.length ≤ x.1) ∧
      (offs.zip (resolveFrom config 0 w).1).Pairwise fun a b => a.1 + span (front ++ w) a.1 a.2 ≤ b.1 := by
  induction w using stream_induction config generalizing front with
  | rest noise w hn hw =>
    rw [resolveFrom_noise config hn, resolveFrom_atRest config hw]
    exact ⟨[], .nil, by simp, .nil⟩
  | candidate noise c w hn hc ih =>
    have hstream : front ++ (noise ++ (c ++ w)) = (front ++ noise) ++ (c ++ w) := (List.append_assoc ..).symm
    have hmoved : front ++ (noise ++ (c ++ w))
        = (front ++ noise ++ c.take (resolve config c).advance) ++ (c.drop (resolve config c).advance ++ w) := by
      simp only [List.append_assoc]
      rw [← List.append_assoc (c.take _), List.take_append_drop]
    have hadvance := (resolve_advance config hc.length_pos).2
    have hspan := span_le_advance hc (front ++ noise) w
    obtain ⟨offs, hjudges, hfrom, hpairs⟩ := ih (front ++ noise ++ c.take (resolve config c).advance)
    rw [← hmoved] at hjudges hpairs
    rw [← hstream] at hspan
    rw [resolveFrom_noise config hn, resolveFrom_candidate config hc]
    have hbehind : ∀ x ∈ offs.zip (resolveFrom config 0 (c.drop (resolve config c).advance ++ w)).1,
        (front ++ noise).length + (resolve config c).advance ≤ x.1 := by
      intro x hx
      simpa [Nat.min_eq_left hadvance, Nat.add_assoc] using hfrom x hx
    refine ⟨(front ++ noise).length :: offs, .cons (hstream ▸ judges_resolve hc (front ++ noise) w) hjudges, ?_,
      .cons (fun x hx => (Nat.add_le_add_left hspan _).trans (hbehind x hx)) hpairs⟩
    intro x hx
    rcases List.mem_cons.mp hx with rfl | hx
    · simp
    · have := hbehind x hx
      rw [List.length_append] at this
      omega

/-- Settles O30: the stream is the appended buffer, with nothing in front of it. -/
theorem outcomesJudgeCandidatesInStreamOrder : Obligations.OutcomesJudgeCandidatesInStreamOrder := by
  intro chunk s w
  obtain ⟨offs, hjudges, -, hpairs⟩ := resolveFrom_judges w []
  exact ⟨_, _, offs, exec_feed chunk s, hjudges, hpairs⟩

/-! ### The loop with an offset (42 R120 to R129) -/

/-- SCAN stops at the end or at a header, and what it passes over is noise (R122). -/
theorem scan_spec (w : List Byte) (fuel off : Nat) (hoff : off ≤ w.length) (hfuel : w.length - off ≤ fuel) :
    off ≤ scan w fuel off ∧ scan w fuel off ≤ w.length ∧
      (scan w fuel off < w.length → at' w (scan w fuel off) = 0xAA) ∧
      ∃ noise, NoHeader noise ∧ w.drop off = noise ++ w.drop (scan w fuel off) := by
  induction fuel generalizing off with
  | zero => exact ⟨Nat.le_refl off, hoff, fun h => absurd h (by rw [scan]; omega), [], by simp [NoHeader], rfl⟩
  | succ fuel ih =>
    by_cases hgo : off < w.length ∧ at' w off ≠ 0xAA
    · obtain ⟨hlt, hbyte⟩ := hgo
      obtain ⟨hle, hend, hheader, noise, hnoise, hdrop⟩ := ih (off + 1) (by omega) (by omega)
      rw [scan, if_pos ⟨hlt, hbyte⟩]
      refine ⟨by omega, hend, hheader, at' w off :: noise, ?_, ?_⟩
      · exact fun b hb => (List.mem_cons.mp hb).elim (· ▸ hbyte) (hnoise b)
      · rw [at'_eq_byteAt, drop_eq_byteAt_cons hlt, hdrop, List.cons_append]
    · rw [scan, if_neg hgo]
      refine ⟨Nat.le_refl off, hoff, fun h => ?_, [], by simp [NoHeader], rfl⟩
      by_contra hbyte
      exact hgo ⟨h, hbyte⟩

/-- A pass of the loop that waits: at the end, or at a candidate that is not full. -/
theorem loop_waits {w : List Byte} {start off : Nat} (fuel : Nat) (out : List FeedOutcome)
    (hscan : scan w w.length start = off) (h : off = w.length ∨ w.length - off < 10 + (at' w (off + 1)).toNat) :
    loop w (fuel + 1) start out = (out, off) := by
  subst hscan
  rw [loop]
  rcases h with hend | hshort
  · exact if_pos hend
  · split_ifs <;> rfl

/-- A pass of the loop that resolves the candidate at `off`: its outcome is appended and `off` moves as the verdict
says. -/
theorem loop_resolves {w c rest : List Byte} {start off : Nat} (fuel : Nat) (out : List FeedOutcome)
    (hscan : scan w w.length start = off) (hc : FullCandidate c) (hw : w.drop off = c ++ rest) :
    loop w (fuel + 1) start out
      = loop w fuel (off + (resolve config c).advance) (out ++ [(resolve config c).outcome]) := by
  have hsize : c.length = 10 + (byteAt c 1).toNat := hc.2
  have hlength : at' w (off + 1) = byteAt c 1 := by
    rw [at'_eq_byteAt, ← byteAt_drop, hw, byteAt_append_left rest (by omega)]
  have hroom : w.length - off = c.length + rest.length := by rw [← List.length_drop, hw, List.length_append]
  have hcand : (w.drop off).take (10 + (at' w (off + 1)).toNat) = c := by
    rw [hw, hlength, ← hsize, List.take_left]
  subst hscan
  rw [loop]
  simp only [hcand]
  rw [if_neg (by omega), if_neg (by omega), if_neg (by rw [hlength]; omega), hlength, ← hsize]
  cases hv : validate config c with
  | error e => rw [resolve_refused hv]
  | ok v =>
    cases hd : decodePayload config v.type v.payload with
    | error e => rw [resolve_truncated hv hd]; simp only [hd]
    | ok f => rw [resolve_accepted hv hd]; simp only [hd]

/-- At a header byte the stream is at rest or starts with a full candidate. -/
theorem header_cases {w : List Byte} (h0 : byteAt w 0 = header) :
    atRest w = true ∨ ∃ c rest, FullCandidate c ∧ w = c ++ rest := by
  cases hc : candidate? w with
  | some c =>
    obtain ⟨hfull, rest, hw⟩ := candidate?_some h0 hc
    exact .inr ⟨c, rest, hfull, hw⟩
  | none =>
    cases w with
    | nil => exact .inl rfl
    | cons b t => exact .inl ((candidate?_eq_none h0).mp hc)

/-- Where the stream is at rest, a pass of the loop waits. -/
theorem waits_of_atRest {w : List Byte} {off : Nat} (hoff : off ≤ w.length) (h : atRest (w.drop off) = true) :
    off = w.length ∨ w.length - off < 10 + (at' w (off + 1)).toNat := by
  rcases (atRest_iff _).mp h with hnil | ⟨-, hshort⟩
  · exact .inl (Nat.le_antisymm hoff (List.drop_eq_nil_iff.mp hnil))
  · rw [List.length_drop, at'_eq_byteAt, byteAt_drop, ← at'_eq_byteAt] at hshort
    omega

/-- The loop with an offset is the recursion over the bytes from the offset on. -/
theorem loop_eq_resolveFrom (w : List Byte) (fuel start : Nat) (out : List FeedOutcome) (hstart : start ≤ w.length)
    (hfuel : w.length - start < fuel) :
    (loop w fuel start out).1 = out ++ (resolveFrom config 0 (w.drop start)).1 ∧
      w.drop (loop w fuel start out).2 = (resolveFrom config 0 (w.drop start)).2 := by
  induction fuel generalizing start out with
  | zero => omega
  | succ fuel ih =>
    obtain ⟨hle, hend, hheader, noise, hnoise, hdrop⟩ := scan_spec w w.length start hstart (by omega)
    generalize hscan : scan w w.length start = off at hle hend hheader hdrop
    have hfront : atRest (w.drop off) = true ∨ ∃ c rest, FullCandidate c ∧ w.drop off = c ++ rest := by
      rcases Nat.lt_or_eq_of_le hend with hlt | hdone
      · exact header_cases (by rw [byteAt_drop, ← at'_eq_byteAt]; exact hheader hlt)
      · exact .inl (List.drop_eq_nil_of_le hdone.ge ▸ rfl)
    rw [hdrop, resolveFrom_noise config hnoise]
    rcases hfront with hrest | ⟨c, rest, hc, hw⟩
    · rw [loop_waits fuel out hscan (waits_of_atRest hend hrest), resolveFrom_atRest config hrest, List.append_nil]
      exact ⟨rfl, rfl⟩
    · obtain ⟨hmoves, hinside⟩ := resolve_advance config hc.length_pos
      have hroom : w.length - off = c.length + rest.length := by rw [← List.length_drop, hw, List.length_append]
      have hbehind : w.drop (off + (resolve config c).advance) = c.drop (resolve config c).advance ++ rest := by
        rw [← List.drop_drop, hw, List.drop_append_of_le_length hinside]
      obtain ⟨houts, hbuf⟩ := ih (off + (resolve config c).advance) (out ++ [(resolve config c).outcome]) (by omega)
        (by omega)
      rw [loop_resolves fuel out hscan hc hw, hw, resolveFrom_candidate config hc, houts, hbuf, hbehind,
        List.append_assoc]
      exact ⟨rfl, rfl⟩

/-- Settles O19: the loop starts at offset 0 with no outcome, and |buf| + 1 passes are enough (`loop_eq_resolveFrom`).
-/
theorem feedIsTheOffsetLoopOfTheSpec : Obligations.FeedIsTheOffsetLoopOfTheSpec := by
  intro chunk s w r
  obtain ⟨houts, hbuf⟩ := loop_eq_resolveFrom w (w.length + 1) 0 [] (Nat.zero_le _) (by omega)
  rw [exec_feed, hbuf, houts]
  rfl

end Sys2Proof
